-- ==== Sys2Proof/Word.lean ====
section
/-! DEFINITION. The word types of the block (spec/00_scope.md R12, spec/10_state.md R23,
spec/30_encoding.md R100, R101). Every value is unsigned (R14). -/

namespace Sys2Proof

/-- A command word, the one instruction format `C` (R101). -/
abbrev CommandWord := BitVec 48

/-- A path metric: "a 16-bit unsigned accumulated error count per state" (R12, R24). -/
abbrev Metric := BitVec 16

/-- A decision entry: one byte per state per time step (R12, R28). -/
abbrev Entry := BitVec 8

/-- One per-symbol distance (R12, R39). -/
abbrev Distance := BitVec 16

/-- Two per-symbol distances in one word, lane 0 low (R74, R210). -/
abbrev PackedDistance := BitVec 32

/-- One output codeword: `RATE` bits, `RATE <= 8`, kept zero-extended in 8 (R34, R8). -/
abbrev Codeword := BitVec 8

/-- A concatenated output pair: `2*RATE` bits, kept zero-extended in 16 (R36, R8). -/
abbrev PairValue := BitVec 16

end Sys2Proof
end

