-- ==== Sys2Proof/Syntax.lean ====
section
/-! DEFINITION. The 26 commands of spec/30_encoding.md R105, one constructor per row of
spec/opcode_table.json, in the table's order. An index, stride, length or register number is a `Nat`
(its range is checked in WellFormed); a datum the spec treats as bits is a bit vector; the selector `W` of
R104 is a `Bool` (`false` the current buffer, `true` the other). -/

namespace Sys2Proof

inductive Instr where
  /-- `SYS.NOP` (R221). -/
  | sysNop
  /-- `SYS.RDREG r` (R222). -/
  | sysRdreg (r : Nat)
  /-- `PM.RESET` (R131). -/
  | pmReset
  /-- `PM.SWAP` (R132). -/
  | pmSwap
  /-- `PM.RDC s` (R133). -/
  | pmRdc (st : Nat)
  /-- `PM.WRC s, m` (R134). -/
  | pmWrc (st : Nat) (m : Metric)
  /-- `PM.RDO s` (R135). -/
  | pmRdo (st : Nat)
  /-- `PM.WRO s, m` (R136). -/
  | pmWro (st : Nat) (m : Metric)
  /-- `DH.RESET` (R151). -/
  | dhReset
  /-- `DH.SLRD s` (R152). -/
  | dhSlrd (st : Nat)
  /-- `DH.SLWR s, v` (R153). -/
  | dhSlwr (st : Nat) (v : Entry)
  /-- `DH.SEARCH stride, W` (R160). -/
  | dhSearch (stride : Nat) (w : Bool)
  /-- `DH.RENORM ms, W` (R163). -/
  | dhRenorm (ms : Nat) (w : Bool)
  /-- `DH.TRACEBACK best, mtb` (R166). -/
  | dhTraceback (best mtb : Nat)
  /-- `DH.PROCSKIP skip, W` (R171). -/
  | dhProcskip (skip : Nat) (w : Bool)
  /-- `DH.PROC W` (R175). -/
  | dhProc (w : Bool)
  /-- `DH.FLUSH` (R177). -/
  | dhFlush
  /-- `BM.TBLWR e, c` (R191). -/
  | bmTblwr (e : Nat) (c : BitVec 16)
  /-- `BM.TBLRD e` (R192). -/
  | bmTblrd (e : Nat)
  /-- `BM.BUILD` (R196). -/
  | bmBuild
  /-- `BM.GETKEY p` (R200). -/
  | bmGetkey (p : Nat)
  /-- `BM.SYMWR i, d` (R202). -/
  | bmSymwr (i : Nat) (d : Distance)
  /-- `BM.SYMRD i` (R203). -/
  | bmSymrd (i : Nat)
  /-- `BM.FILL` (R205). -/
  | bmFill
  /-- `BM.GETDIST k` (R208). -/
  | bmGetdist (k : Nat)
  /-- `BM.GETOUT k` (R209). -/
  | bmGetout (k : Nat)
  deriving DecidableEq, Repr

end Sys2Proof
end

