-- ==== Sys2Proof/WellFormed.lean ====
section
/-! DEFINITION. Which terms of `Instr` are commands the 48-bit format can carry: an operand in field `A` is a
24-bit number, the warm-up length in field `B` a 16-bit number (spec/30_encoding.md R101 to R103). Whether an
operand is legal for the block (a state index below `NUM_STATES`, say) is the machine's check, not this one. -/

namespace Sys2Proof

/-- `n` fits the 24-bit field `A` (R102). -/
def fitsA (n : Nat) : Bool := n < 2 ^ 24

/-- `n` fits the 16-bit field `B` (R103). -/
def fitsB (n : Nat) : Bool := n < 2 ^ 16

/-- The term is the reading of some command word. -/
def Instr.wf : Instr → Bool
  | .sysNop => true
  | .sysRdreg r => fitsA r
  | .pmReset => true
  | .pmSwap => true
  | .pmRdc st => fitsA st
  | .pmWrc st _ => fitsA st
  | .pmRdo st => fitsA st
  | .pmWro st _ => fitsA st
  | .dhReset => true
  | .dhSlrd st => fitsA st
  | .dhSlwr st _ => fitsA st
  | .dhSearch stride _ => fitsA stride
  | .dhRenorm ms _ => fitsA ms
  | .dhTraceback best mtb => fitsA best && fitsB mtb
  | .dhProcskip skip _ => fitsA skip
  | .dhProc _ => true
  | .dhFlush => true
  | .bmTblwr e _ => fitsA e
  | .bmTblrd e => fitsA e
  | .bmBuild => true
  | .bmGetkey p => fitsA p
  | .bmSymwr i _ => fitsA i
  | .bmSymrd i => fitsA i
  | .bmFill => true
  | .bmGetdist k => fitsA k
  | .bmGetout k => fitsA k

end Sys2Proof
end

