-- ==== Sys2Proof/Decode.lean ====
section
/-! DEFINITION. Decoding (spec/30_encoding.md R101 to R112, steps (2) to (4) of R112), total on every 48-bit
word and rejecting by name, and then the encoder, written from the same table (R105, R113). -/

namespace Sys2Proof

/-- Why a word is no command. The block turns each into its fault (R112 (3) and (4)). -/
inductive Reject where
  /-- `OP` is not one of the 26 opcodes (R109). -/
  | illegalOp
  /-- A bit that R105 marks reserved is 1 (R110). -/
  | reserved
  deriving DecidableEq, Repr

/-- What a word is: a command, or a named rejection. -/
inductive Decoded where
  | command (i : Instr)
  | rejected (r : Reject)
  deriving DecidableEq, Repr

/-- `OP = [47:40]` (R101). -/
def opField (w : CommandWord) : BitVec 8 := w.extractLsb' 40 8

/-- `A = [39:16]` (R101). -/
def aField (w : CommandWord) : BitVec 24 := w.extractLsb' 16 24

/-- `B = [15:0]` (R101). -/
def bField (w : CommandWord) : BitVec 16 := w.extractLsb' 0 16

/-- A command if no reserved bit is set, else the rejection (R110). -/
def orReserved (reservedClear : Bool) (i : Instr) : Decoded :=
  if reservedClear then .command i else .rejected .reserved

/-- Both fields reserved. -/
def takesNone (i : Instr) (a : BitVec 24) (b : BitVec 16) : Decoded :=
  orReserved (a == 0 && b == 0) i

/-- `A` an operand, `B` reserved. -/
def takesA (f : Nat → Instr) (a : BitVec 24) (b : BitVec 16) : Decoded :=
  orReserved (b == 0) (f a.toNat)

/-- Both fields whole operands: nothing reserved. -/
def takesAB (f : Nat → BitVec 16 → Instr) (a : BitVec 24) (b : BitVec 16) : Decoded :=
  .command (f a.toNat b)

/-- `A` an operand, `B[7:0]` a byte, `B[15:8]` reserved. -/
def takesAByte (f : Nat → BitVec 8 → Instr) (a : BitVec 24) (b : BitVec 16) : Decoded :=
  orReserved (b.extractLsb' 8 8 == 0) (f a.toNat (b.extractLsb' 0 8))

/-- `A` an operand, `B[0]` the selector `W`, `B[15:1]` reserved (R104). -/
def takesASel (f : Nat → Bool → Instr) (a : BitVec 24) (b : BitVec 16) : Decoded :=
  orReserved (b.extractLsb' 1 15 == 0) (f a.toNat (b.getLsbD 0))

/-- `A` reserved, `B[0]` the selector `W`, `B[15:1]` reserved (R104). -/
def takesSel (f : Bool → Instr) (a : BitVec 24) (b : BitVec 16) : Decoded :=
  orReserved (a == 0 && b.extractLsb' 1 15 == 0) (f (b.getLsbD 0))

/-- The opcode map, R105's table row by row. -/
def decodeFields (op : Nat) (a : BitVec 24) (b : BitVec 16) : Decoded :=
  match op with
  | 0x00 => takesNone .sysNop a b
  | 0x01 => takesA .sysRdreg a b
  | 0x10 => takesNone .pmReset a b
  | 0x11 => takesNone .pmSwap a b
  | 0x12 => takesA .pmRdc a b
  | 0x13 => takesAB .pmWrc a b
  | 0x14 => takesA .pmRdo a b
  | 0x15 => takesAB .pmWro a b
  | 0x20 => takesNone .dhReset a b
  | 0x21 => takesA .dhSlrd a b
  | 0x22 => takesAByte .dhSlwr a b
  | 0x23 => takesASel .dhSearch a b
  | 0x24 => takesASel .dhRenorm a b
  | 0x25 => takesAB (fun best m => .dhTraceback best m.toNat) a b
  | 0x26 => takesASel .dhProcskip a b
  | 0x27 => takesSel .dhProc a b
  | 0x28 => takesNone .dhFlush a b
  | 0x30 => takesAB .bmTblwr a b
  | 0x31 => takesA .bmTblrd a b
  | 0x32 => takesNone .bmBuild a b
  | 0x33 => takesA .bmGetkey a b
  | 0x34 => takesAB .bmSymwr a b
  | 0x35 => takesA .bmSymrd a b
  | 0x36 => takesNone .bmFill a b
  | 0x37 => takesA .bmGetdist a b
  | 0x38 => takesA .bmGetout a b
  | _ => .rejected .illegalOp

/-- Steps (2), (3), (4) of R112. -/
def decode (w : CommandWord) : Decoded :=
  decodeFields (opField w).toNat (aField w) (bField w)

/-- The command in a table word: bit 0 of `w` is bit 0 of the 48-bit word, which crosses the port whole
(R73, R100), so the table's number is the word itself; bits from `nbits` up are 0 (log 7). -/
def decodeTableWord (nbits w : Nat) : Option Instr :=
  if w % 2 ^ nbits < 2 ^ 48 then
    match decode (BitVec.ofNat 48 (w % 2 ^ nbits)) with
    | .command i => some i
    | .rejected _ => none
  else none

/-! The encoder. -/

/-- `OP || A || B` (R101): the word `(OP << 40) | (A << 16) | B` of R113. -/
def commandWord (op : BitVec 8) (a : BitVec 24) (b : BitVec 16) : CommandWord := op ++ (a ++ b)

/-- The opcode of a command (R105). -/
def opcode : Instr → BitVec 8
  | .sysNop => 0x00
  | .sysRdreg _ => 0x01
  | .pmReset => 0x10
  | .pmSwap => 0x11
  | .pmRdc _ => 0x12
  | .pmWrc _ _ => 0x13
  | .pmRdo _ => 0x14
  | .pmWro _ _ => 0x15
  | .dhReset => 0x20
  | .dhSlrd _ => 0x21
  | .dhSlwr _ _ => 0x22
  | .dhSearch _ _ => 0x23
  | .dhRenorm _ _ => 0x24
  | .dhTraceback _ _ => 0x25
  | .dhProcskip _ _ => 0x26
  | .dhProc _ => 0x27
  | .dhFlush => 0x28
  | .bmTblwr _ _ => 0x30
  | .bmTblrd _ => 0x31
  | .bmBuild => 0x32
  | .bmGetkey _ => 0x33
  | .bmSymwr _ _ => 0x34
  | .bmSymrd _ => 0x35
  | .bmFill => 0x36
  | .bmGetdist _ => 0x37
  | .bmGetout _ => 0x38

/-- The number in field `A` (R105); 0 where the field is reserved. -/
def operandA : Instr → Nat
  | .sysNop | .pmReset | .pmSwap | .dhReset | .dhFlush | .bmBuild | .bmFill | .dhProc _ => 0
  | .sysRdreg n | .pmRdc n | .pmRdo n | .dhSlrd n | .bmTblrd n | .bmGetkey n | .bmSymrd n
  | .bmGetdist n | .bmGetout n => n
  | .pmWrc n _ | .pmWro n _ | .bmTblwr n _ | .bmSymwr n _ => n
  | .dhSlwr n _ => n
  | .dhSearch n _ | .dhRenorm n _ | .dhProcskip n _ => n
  | .dhTraceback n _ => n

/-- The selector as field `B`: `B[0] = W`, `B[15:1] = 0` (R104). -/
def selectorB (w : Bool) : BitVec 16 := (BitVec.ofBool w).setWidth 16

/-- Field `B` (R105); 0 where the field is reserved. -/
def operandB : Instr → BitVec 16
  | .sysNop | .pmReset | .pmSwap | .dhReset | .dhFlush | .bmBuild | .bmFill => 0
  | .sysRdreg _ | .pmRdc _ | .pmRdo _ | .dhSlrd _ | .bmTblrd _ | .bmGetkey _ | .bmSymrd _
  | .bmGetdist _ | .bmGetout _ => 0
  | .pmWrc _ v | .pmWro _ v | .bmTblwr _ v | .bmSymwr _ v => v
  | .dhSlwr _ v => v.setWidth 16
  | .dhSearch _ w | .dhRenorm _ w | .dhProcskip _ w => selectorB w
  | .dhProc w => selectorB w
  | .dhTraceback _ mtb => BitVec.ofNat 16 mtb

/-- The word of a command (R113). -/
def encode (i : Instr) : CommandWord :=
  commandWord (opcode i) (BitVec.ofNat 24 (operandA i)) (operandB i)

end Sys2Proof
end

