-- ==== Sys2Proof/Config.lean ====
section
/-! DEFINITION. What one instance of the block fixes when it is built (spec/00_scope.md R8 to R11), and the
values the spec leaves unspecified at hard reset (spec/10_state.md R50, U9), as opaque constants. -/

namespace Sys2Proof

/-- The implementation parameters of R8, "fixed when the block is built ... and never changed by any
command. A model takes them as arguments." `NUM_STATES = 2^logStates`. The last field is R8's table of legal
values: "A configuration outside the ranges is not an instance of this block" (D8, U8), so no value of this
type is one (assumption log 1). -/
structure Params where
  /-- The spec's `S`: `NUM_STATES = 2^S`. -/
  logStates : Nat
  minTb : Nat
  tbGroup : Nat
  renormInterval : Nat
  rate : Nat
  order : Nat
  /-- The OPEN parameter `RST_CLEARS_RCNT` (D13, U7). -/
  rstClearsRcnt : Bool
  legal : logStates ≤ 16 ∧ 1 ≤ tbGroup ∧ minTb + tbGroup ≤ 65535 ∧
    (1 ≤ renormInterval ∧ renormInterval ≤ 2 ^ 32 - 1) ∧ (1 ≤ rate ∧ rate ≤ 8) ∧ (1 ≤ order ∧ order ≤ 16)
  deriving DecidableEq, Repr

namespace Params

/-- `NUM_STATES`, a power of two (R8). -/
def numStates (p : Params) : Nat := 2 ^ p.logStates

/-- `HIGHBIT = NUM_STATES >> 1` (R9). -/
def highbit (p : Params) : Nat := p.numStates >>> 1

/-- `CAP = MIN_TB + TB_GROUP` (R9). -/
def cap (p : Params) : Nat := p.minTb + p.tbGroup

/-- `2^ORDER`, the number of entries of `TBL` (R34). -/
def tblSize (p : Params) : Nat := 2 ^ p.order

/-- `2^(ORDER-1)`, the number of pairs and of entries of `KEYS` (R35). -/
def numPairs (p : Params) : Nat := 2 ^ (p.order - 1)

/-- `2^RATE`, the number of symbols and of entries of `SYM` (R39). -/
def numSymbols (p : Params) : Nat := 2 ^ p.rate

/-- `2^(2*RATE)`, the number of values a concatenated pair can have (R36). -/
def numPairValues (p : Params) : Nat := 2 ^ (2 * p.rate)

/-- `OUT_CAP = min(2^(ORDER-1), 2^(2*RATE)) + 1` (R8). -/
def outCap (p : Params) : Nat := min p.numPairs p.numPairValues + 1

/-- DESIGN CHOICE (log 1): the instance `State.reset` stands for. The numbers are those of the source's
end-to-end scenario (V-S6: 4 states, rate 1/2, constraint length 3, warm-up 5, group 3, interval 8), with
`RST_CLEARS_RCNT` at the spec's default 0. Only `State.reset` uses it; no statement rests on it. -/
def scenario : Params where
  logStates := 2
  minTb := 5
  tbGroup := 3
  renormInterval := 8
  rate := 2
  order := 3
  rstClearsRcnt := false
  legal := by decide

end Params

/-! FREE VALUES (assumption log 2). "unspecified" in R50 means "each element holds some value of its width that
the spec does not fix". The arguments are the instance, the number of hard resets so far (`State.resets`), and the
element's indices, so that two hard resets need not leave the same contents. Nothing can be proved of a value. -/

/-- `HIST[p][i]` after hard reset. -/
opaque Config.resetHist : Params → Nat → Nat → Nat → Entry
/-- `TBL[e]` after hard reset; its low `RATE` bits are used. -/
opaque Config.resetTbl : Params → Nat → Nat → Codeword
/-- `KEYS[p]` after hard reset. -/
opaque Config.resetKeys : Params → Nat → Nat → BitVec 16
/-- `OUTS[k]` after hard reset; its low `2*RATE` bits are used. -/
opaque Config.resetOuts : Params → Nat → Nat → PairValue
/-- `DIST[k]` after hard reset. -/
opaque Config.resetDist : Params → Nat → Nat → PackedDistance
/-- `SYM[i]` after hard reset. -/
opaque Config.resetSym : Params → Nat → Nat → Distance

end Sys2Proof
end

