-- ==== Sys2Proof/Machine/State.lean ====
section
/-! DEFINITION. The block's state (spec/10_state.md R23 to R43), the instance's parameters, the two
streams that cross its ports, and the state after hard reset (R50). Plain data. -/

namespace Sys2Proof.Machine

/-- A response on `RSP` (spec/30_encoding.md R106): `ST = RSP[39:32]`, `R = RSP[31:0]`. -/
structure Response where
  st : BitVec 8
  r : BitVec 32
  deriving DecidableEq, Repr

/-- What the outside presents (R100): a command word on `CMD`, or the assertion of `RST`. -/
inductive Input where
  | cmd (w : CommandWord)
  | rst
  deriving DecidableEq, Repr

/-- What the block sends (R100): a response on `RSP`, or a batch `(F, n)` on `SINK`, whose bits are in
collection order, newest first, and whose `n` is their number (R108). -/
inductive Output where
  | response (x : Response)
  | batch (bits : List Bool)
  deriving DecidableEq, Repr

/-- The causes of a fault of the block (spec/60_exceptions.md R231). -/
inductive Cause where
  /-- An opcode outside the table (R232). -/
  | illegalOp
  /-- A reserved bit is 1 (R235). -/
  | reserved
  /-- The command needs `BUILT = 1` (R233). -/
  | notBuilt
  /-- An index, or a register number, is out of range (R234). -/
  | index
  /-- A search stride of 0 (R237). -/
  | stride0
  /-- A codeword does not fit `RATE` bits (R238). -/
  | value
  /-- A warm-up longer than the valid history (R239). -/
  | tblen
  deriving DecidableEq, Repr

/-- The state. Arrays are dense lists of their elements (log 5). -/
structure State where
  /-- The instance's parameters (R8); no command changes them (log 1). -/
  params : Params
  /-- `PM[0]` (R24). -/
  pm0 : List Metric
  /-- `PM[1]` (R24). -/
  pm1 : List Metric
  /-- `SEL` (R25): `false` is 0. -/
  sel : Bool
  /-- `HIST` (R28), slice by slice. -/
  hist : List (List Entry)
  /-- `IDX` (R29). -/
  idx : BitVec 16
  /-- `LEN` (R30). -/
  len : BitVec 16
  /-- `RCNT` (R31). -/
  rcnt : BitVec 32
  /-- `TBL` (R34). -/
  tbl : List Codeword
  /-- `KEYS` (R35). -/
  keys : List (BitVec 16)
  /-- `OUTS` (R36). -/
  outs : List PairValue
  /-- `OUTLEN` (R37). -/
  outlen : BitVec 16
  /-- `DIST` (R38). -/
  dist : List PackedDistance
  /-- `SYM` (R39). -/
  sym : List Distance
  /-- `BUILT` (R40). -/
  built : Bool
  /-- `FAULT` (R42). -/
  fault : Bool
  /-- `FCODE` (R43). -/
  fcode : BitVec 4
  /-- The inputs still to be presented, next first (R84; not block state by R23; log 3). -/
  input : List Input
  /-- What the block has sent since hard reset, oldest first (R47, R107; not block state by R23; log 4). -/
  outputs : List Output
  /-- The model's own: how many hard resets have happened; argument of the free values (log 2). -/
  resets : Nat
  deriving DecidableEq, Repr

/-- The model stops with no fault. A precondition violation is the BLOCK's fault: it is state (`FAULT`,
`FCODE`), it is answered on `RSP`, and the machine goes on (R236, R244), so it is a next state here. Nobody raises a
value of this type: it has none (log 8). Safe: nothing stops where the hardware goes on. -/
inductive Fault
  deriving DecidableEq, Repr

/-- Why the model gives a command no meaning. -/
inductive Refusal where
  /-- Raised only by an arm of `exec` whose instruction has no meaning yet. Safe. No arm does. -/
  | notModelled (mnemonic : String)
  deriving DecidableEq, Repr

namespace State

/-- Hard reset of an instance with parameters `p`, the `n`-th (R50, R260): `PM` all 0; `SEL`, `IDX`, `LEN`,
`RCNT`, `OUTLEN`, `BUILT`, `FAULT`, `FCODE` 0; `HIST`, `TBL`, `SYM`, `KEYS`, `OUTS`, `DIST` unspecified (free
values, log 2); `OUT` empty. No input is waiting: "the block waits for the host's first command" (R51). -/
def afterHardReset (p : Params) (n : Nat) : State where
  params := p
  pm0 := List.replicate p.numStates 0
  pm1 := List.replicate p.numStates 0
  sel := false
  hist := (List.range p.cap).map fun q => (List.range p.numStates).map fun i => Config.resetHist p n q i
  idx := 0
  len := 0
  rcnt := 0
  tbl := (List.range p.tblSize).map fun e => BitVec.ofNat 8 ((Config.resetTbl p n e).toNat % p.numSymbols)
  keys := (List.range p.numPairs).map fun q => Config.resetKeys p n q
  outs := (List.range p.outCap).map fun k => BitVec.ofNat 16 ((Config.resetOuts p n k).toNat % p.numPairValues)
  outlen := 0
  dist := (List.range p.outCap).map fun k => Config.resetDist p n k
  sym := (List.range p.numSymbols).map fun i => Config.resetSym p n i
  built := false
  fault := false
  fcode := 0
  input := []
  outputs := []
  resets := n

/-- The machine right after reset, for the one instance `Params.scenario` (DESIGN CHOICE, log 1). -/
def reset : State := afterHardReset Params.scenario 0

/-- The responses sent since hard reset, oldest first (R106, R107). -/
def responses (s : State) : List Response :=
  s.outputs.filterMap fun
    | .response x => some x
    | .batch _ => none

/-- The batches handed to the sink since hard reset, oldest first (R87, R108). -/
def batches (s : State) : List (List Bool) :=
  s.outputs.filterMap fun
    | .response _ => none
    | .batch bits => some bits

/-- The sink's chronological stream `OUT`: each batch appends `F[n-1], ..., F[0]` (R47). -/
def out (s : State) : List Bool := s.batches.flatMap List.reverse

end State

end Sys2Proof.Machine
end

