-- ==== Sys2Proof/Machine/Flags.lean ====
section
/-! DEFINITION. The block's only flags (spec/10_state.md R40, R42 to R44): fault codes, the status byte that
carries them (spec/30_encoding.md R106), and the `FLAGS` register. No command sets a flag as a side effect of
arithmetic (R44). -/

namespace Sys2Proof.Machine

/-- The code of a cause (R231). -/
def Cause.code : Cause → BitVec 4
  | .illegalOp => 1
  | .reserved => 2
  | .notBuilt => 3
  | .index => 4
  | .stride0 => 5
  | .value => 6
  | .tblen => 7

/-- The cause of a word that is no command (R112 (3), (4); R232, R235). -/
def causeOfReject : Reject → Cause
  | .illegalOp => .illegalOp
  | .reserved => .reserved

/-- "`ST = 0x00` means the command completed" (R106). -/
def statusOk : BitVec 8 := 0x00

/-- "`ST = 0x80 | FCODE`" (R106). -/
def statusFault (code : BitVec 4) : BitVec 8 := 0x80 ||| code.setWidth 8

/-- The response of a command that completed with result `r` (R106). -/
def okResponse (r : BitVec 32) : Response := ⟨statusOk, r⟩

/-- The response of a command that was refused; "`R` is then 0" (R106). -/
def faultResponse (code : BitVec 4) : Response := ⟨statusFault code, 0⟩

/-- The 40-bit response word, `ST = RSP[39:32]`, `R = RSP[31:0]` (R106). -/
def Response.word (x : Response) : BitVec 40 := x.st ++ x.r

/-- The register `FLAGS`: bit 0 is `BUILT`, bits `[31:1]` read 0 (R48). -/
def flagsRegister (s : State) : BitVec 32 := (BitVec.ofBool s.built).setWidth 32

/-- The register `OPTIONS`: bit 0 is `RST_CLEARS_RCNT`, bits `[31:1]` read 0 (R48). -/
def optionsRegister (s : State) : BitVec 32 := (BitVec.ofBool s.params.rstClearsRcnt).setWidth 32

end Sys2Proof.Machine
end

