-- ==== Sys2Proof/Machine/Ops.lean ====
section
/-! DEFINITION. The named operations over the block's arrays, registers and ports that the meanings share:
element access (spec/20_memory.md), responses and batches (spec/30_encoding.md), taking a fault and leaving it
(spec/60_exceptions.md, spec/70_reset_and_hazards.md), and the bodies P160, P166, P171, P196 of the command files. -/

namespace Sys2Proof.Machine

/-! ## Elements of arrays (R76: every access moves one whole element) -/

/-- Element `i` of an array. An index at or past the end occurs only in a state that breaks `Memory.wf` and then
reads 0 (log 5); every command checks its indices first. -/
def readElem {n : Nat} (l : List (BitVec n)) (i : Nat) : BitVec n := l.getD i 0

/-- The array with element `i` replaced. -/
def writeElem {α : Type} (l : List α) (i : Nat) (v : α) : List α := l.set i v

/-! ## Path-metric buffers (R24 to R27) -/

/-- `PM[b]` (R24). -/
def pmBuffer (s : State) (b : Bool) : List Metric := if b then s.pm1 else s.pm0

/-- The state with `PM[b]` replaced. -/
def setPmBuffer (b : Bool) (l : List Metric) (s : State) : State :=
  if b then { s with pm1 := l } else { s with pm0 := l }

/-- `BUF(W) = PM[SEL xor W]` (R27): `false` the current buffer, `true` the other. -/
def buf (s : State) (w : Bool) : List Metric := pmBuffer s (s.sel ^^ w)

/-- The state with `BUF(W)` replaced. -/
def setBuf (w : Bool) (l : List Metric) (s : State) : State := setPmBuffer (s.sel ^^ w) l s

/-- The metric of state `i` in `BUF(W)`. -/
def readMetric (s : State) (w : Bool) (i : Nat) : Metric := readElem (buf s w) i

/-- The state with the metric of state `i` in `BUF(W)` replaced. -/
def writeMetric (w : Bool) (i : Nat) (m : Metric) (s : State) : State := setBuf w (writeElem (buf s w) i m) s

/-! ## Decision slices (R28, R29) -/

/-- `HIST[p]`. -/
def slice (s : State) (p : Nat) : List Entry := s.hist.getD p []

/-- `HIST[p][i]`. -/
def readEntry (s : State) (p i : Nat) : Entry := readElem (slice s p) i

/-- The state with `HIST[p][i]` replaced. -/
def writeEntry (p i : Nat) (v : Entry) (s : State) : State :=
  { s with hist := writeElem s.hist p (writeElem (slice s p) i v) }

/-- An entry is "*set* when it is not zero" (R28). -/
def isSet (d : Entry) : Bool := d != 0

/-! ## Bit fields and packing -/

/-- `v[lo+n-1 : lo]` as a number (R13). -/
def bitsOf {k : Nat} (v : BitVec k) (lo n : Nat) : Nat := v.toNat / 2 ^ lo % 2 ^ n

/-- `(hi << 16) | lo` (R74, R210). -/
def packDistance (hi lo : Distance) : PackedDistance := (hi.setWidth 32 <<< 16) ||| lo.setWidth 32

/-- Lane 0 of a packed distance (R210). -/
def laneLow (v : PackedDistance) : Distance := v.extractLsb' 0 16

/-- Lane 1 of a packed distance (R210). -/
def laneHigh (v : PackedDistance) : Distance := v.extractLsb' 16 16

/-! ## The shape of the arrays -/

/-- Every array has exactly the length R23 gives it, and the elements narrower than their Lean type fit their
width: the one canonical form of the arrays, in which equal contents are equal lists (log 5, log 6). -/
def Memory.wf (s : State) : Bool :=
  s.pm0.length == s.params.numStates && s.pm1.length == s.params.numStates
    && s.hist.length == s.params.cap && s.hist.all (fun l => l.length == s.params.numStates)
    && s.tbl.length == s.params.tblSize && s.tbl.all (fun c => c.toNat < s.params.numSymbols)
    && s.keys.length == s.params.numPairs
    && s.outs.length == s.params.outCap && s.outs.all (fun v => v.toNat < s.params.numPairValues)
    && s.dist.length == s.params.outCap && s.sym.length == s.params.numSymbols

/-! ## Ports -/

/-- `respond(R)`: one response with status OK (R106, R107). -/
def respond (r : BitVec 32) (s : State) : State := { s with outputs := s.outputs ++ [.response (okResponse r)] }

/-- `sink(F, n)`: one batch, newest bit first (R108). -/
def sendBatch (bits : List Bool) (s : State) : State := { s with outputs := s.outputs ++ [.batch bits] }

/-- The response of a command that counts the bits it emitted. -/
def respondCount (x : State × Nat) : State := respond (BitVec.ofNat 32 x.2) x.1

/-- The next input and the state without it (R84: one at a time, in the order presented). -/
def nextInput (s : State) : Option (Input × State) :=
  match s.input with
  | [] => none
  | x :: rest => some (x, { s with input := rest })

/-- The state in which the word `w` is what is presented next. -/
def presentWord (w : CommandWord) (s : State) : State := { s with input := .cmd w :: s.input }

/-! ## Faults -/

/-- Fault entry (R236): `FAULT <- 1`, `FCODE <- c`, the response `(0x80 | c, 0)`; "no other state changes". -/
def takeFault (c : Cause) (s : State) : State :=
  { s with fault := true, fcode := c.code, outputs := s.outputs ++ [.response (faultResponse c.code)] }

/-- A command presented while `FAULT = 1`: it changes nothing and is answered with the stored code (R244). -/
def refuseFaulted (s : State) : State :=
  { s with outputs := s.outputs ++ [.response (faultResponse s.fcode)] }

/-- The only way out of a fault: hard reset (R260). Every piece of state takes its reset value (R50); the inputs
still to come are the environment's and stay (log 10). -/
def hardReset (s : State) : State :=
  { State.afterHardReset s.params (s.resets + 1) with input := s.input }

/-- Every command (R112, R243): refused while `FAULT = 1`; else the first violation is the fault; else the effect.
All checks are made on the state before the command. -/
def command (violation : Option Cause) (effect : State → State) (s : State) : Host.Outcome State Fault Refusal :=
  if s.fault then .next (refuseFaulted s)
  else match violation with
    | some c => .next (takeFault c s)
    | none => .next (effect s)

/-- A word that is no command (R112 (1), (3), (4)). -/
def rejectWord (r : Reject) (s : State) : State :=
  if s.fault then refuseFaulted s else takeFault (causeOfReject r) s

/-- No input: "Between commands the block holds its state unchanged for any length of time" (R251). -/
def idle (s : State) : State := s

/-! ## Search (P160) -/

/-- The source's `INT_MAX`, wider than any metric (R160, R161). -/
def searchSentinel : Nat := 2 ^ 31 - 1

/-- The loop of P160 over `m`, the metric of a state. With a stride of at least 1 the loop runs at most
`n` times, which bounds it here (R162, R225; log 12). -/
def searchLoop (m : Nat → Nat) (n stride : Nat) : Nat → Nat → Nat → Nat → Nat
  | 0, _, _, best => best
  | fuel + 1, c, least, best =>
    if c < n then
      if m c < least then searchLoop m n stride fuel (c + stride) (m c) c
      else searchLoop m n stride fuel (c + stride) least best
    else best

/-- `search(W, stride)` (P160). -/
def search (s : State) (w : Bool) (stride : Nat) : Nat :=
  searchLoop (fun c => (readMetric s w c).toNat) s.params.numStates stride s.params.numStates 0 searchSentinel 0

/-! ## Renormalization (R163) -/

/-- Subtract the metric of state `ms` from every entry of `BUF(W)`, modulo `2^16`; the subtrahend is read once. -/
def renormalize (w : Bool) (ms : Nat) (s : State) : State :=
  let sub := readMetric s w ms
  setBuf w ((buf s w).map (fun m => m - sub)) s

/-! ## Traceback (P166) -/

/-- "step back one slice, wrap at 0" (P166). -/
def stepBack (cap pos : Nat) : Nat := if pos = 0 then cap - 1 else pos - 1

/-- "OR the high bit in, shift right, bit 0 is dropped" (P166, R167). -/
def pathStep (highbit st : Nat) (d : Entry) : Nat := (st ||| (if isSet d then highbit else 0)) >>> 1

/-- The loop of P166: `k` steps to go, the next one being step `j`, from position `pos` and state `st`. The
answer is `F` from here on: the bits of the steps past the warm-up, newest first. -/
def walk (s : State) (mtb : Nat) : Nat → Nat → Nat → Nat → List Bool
  | 0, _, _, _ => []
  | k + 1, j, pos, st =>
    let pos' := stepBack s.params.cap pos
    let d := readEntry s pos' st
    let rest := walk s mtb k (j + 1) pos' (pathStep s.params.highbit st d)
    if mtb ≤ j then isSet d :: rest else rest

/-- `traceback(best, mtb)` (P166): one batch, `LEN <- LEN - n`, and `n`. -/
def traceback (best mtb : Nat) (s : State) : State × Nat :=
  let bits := walk s mtb s.len.toNat 0 s.idx.toNat best
  (sendBatch bits { s with len := BitVec.ofNat 16 (s.len.toNat - bits.length) }, bits.length)

/-! ## Process (P171) -/

/-- The first three lines of P171: commit the slice at `IDX`. -/
def commitSlice (s : State) : State :=
  { s with
    idx := if s.idx.toNat + 1 = s.params.cap then 0 else s.idx + 1
    len := s.len + 1
    rcnt := s.rcnt + 1 }

/-- P171 after the three increments: one of the four actions of R172. -/
def procActions (skip : Nat) (w : Bool) (s : State) : State × Nat :=
  if s.rcnt.toNat = s.params.renormInterval then
    let best := search s w skip
    let t := renormalize w best { s with rcnt := 0 }
    if s.len.toNat = s.params.cap then traceback best s.params.minTb t else (t, 0)
  else if s.len.toNat = s.params.cap then traceback (search s w skip) s.params.minTb s
  else (s, 0)

/-- `procskip(skip, W)` (P171). -/
def procskip (skip : Nat) (w : Bool) (s : State) : State × Nat := procActions skip w (commitSlice s)

/-! ## Building and filling the branch-metric table (P196, R205) -/

/-- `(TBL[2p+1] << RATE) | TBL[2p]` (P196). -/
def pairValue (s : State) (p : Nat) : PairValue :=
  ((readElem s.tbl (2 * p + 1)).setWidth 16 <<< s.params.rate) ||| (readElem s.tbl (2 * p)).setWidth 16

/-- The pair values in the order P196 visits them. -/
def pairValues (s : State) : List PairValue := (List.range s.params.numPairs).map (pairValue s)

/-- The variables of P196's loop. -/
structure BuildVars where
  seen : List (PairValue × Nat)
  outs : List PairValue
  keys : List (BitVec 16)
  cnt : Nat
  deriving DecidableEq, Repr

/-- The body of P196's loop for one pair value. Presence is recorded apart from value (R197). -/
def buildStep (x : BuildVars) (v : PairValue) : BuildVars :=
  match x.seen.lookup v with
  | some k => { x with keys := x.keys ++ [BitVec.ofNat 16 k] }
  | none =>
    { seen := x.seen ++ [(v, x.cnt)]
      outs := writeElem x.outs x.cnt v
      keys := x.keys ++ [BitVec.ofNat 16 x.cnt]
      cnt := x.cnt + 1 }

/-- P196's loop over all pairs. Slot 0 is the reserved sentinel, so counting starts at 1. -/
def buildLoop (s : State) : BuildVars :=
  (pairValues s).foldl buildStep
    { seen := [], outs := List.replicate s.params.outCap 0, keys := [], cnt := 1 }

/-- `build()` (P196). -/
def buildTable (s : State) : State :=
  { s with
    keys := (buildLoop s).keys
    outs := (buildLoop s).outs
    outlen := BitVec.ofNat 16 (buildLoop s).cnt
    dist := List.replicate s.params.outCap 0
    built := true }

/-- The packed distance of slot `k` from the current `SYM` (R205). -/
def slotDistance (s : State) (k : Nat) : PackedDistance :=
  packDistance
    (readElem s.sym (bitsOf (readElem s.outs k) s.params.rate s.params.rate))
    (readElem s.sym (bitsOf (readElem s.outs k) 0 s.params.rate))

/-- `for k in 1 .. OUTLEN-1: DIST[k] <- ...` (R205). -/
def fillDistances (s : State) : State :=
  { s with
    dist := s.dist.mapIdx fun k d => if 1 ≤ k ∧ k < s.outlen.toNat then slotDistance s k else d }

/-! ## The two resets that are commands (R131, R151) -/

/-- Zero both buffers and select buffer 0 (R131). -/
def resetMetrics (s : State) : State :=
  { s with
    pm0 := List.replicate s.params.numStates 0
    pm1 := List.replicate s.params.numStates 0
    sel := false }

/-- `LEN <- 0; IDX <- 0; if RST_CLEARS_RCNT == 1: RCNT <- 0` (R151). -/
def resetHistory (s : State) : State :=
  { s with
    len := 0
    idx := 0
    rcnt := if s.params.rstClearsRcnt then 0 else s.rcnt }

end Sys2Proof.Machine
end

