-- ==== Sys2Proof/Machine/Operands.lean ====
section
/-! DEFINITION. Every form of operand the commands take and the check the spec gives it (spec/60_exceptions.md
R233 to R239; order: R112, R242): `none` where the operand is legal, else the cause. -/

namespace Sys2Proof.Machine

/-- An index operand below `bound`, else `E_INDEX` (R234). -/
def checkIndex (i bound : Nat) : Option Cause := if i < bound then none else some .index

/-- A search stride that is not 0, else `E_STRIDE0` (R237). -/
def checkStride (stride : Nat) : Option Cause := if stride = 0 then some .stride0 else none

/-- `BUILT = 1`, else `E_NOTBUILT` (R233). -/
def checkBuilt (s : State) : Option Cause := if s.built then none else some .notBuilt

/-- A codeword below `2^RATE`, else `E_VALUE` (R238). -/
def checkCodeword (s : State) (c : BitVec 16) : Option Cause :=
  if c.toNat < s.params.numSymbols then none else some .value

/-- A warm-up no longer than the valid history, else `E_TBLEN` (R239). -/
def checkWarmup (s : State) (mtb : Nat) : Option Cause := if mtb ≤ s.len.toNat then none else some .tblen

/-- The earlier check wins (R242). -/
def firstOf (x y : Option Cause) : Option Cause :=
  match x with
  | some c => some c
  | none => y

/-- `REGMAP` (R48): the readable scalars and parameters, zero-extended to 32 bits. -/
def regValue (s : State) (r : Nat) : Option (BitVec 32) :=
  match r with
  | 0x00 => some ((BitVec.ofBool s.sel).setWidth 32)
  | 0x01 => some (s.idx.setWidth 32)
  | 0x02 => some (s.len.setWidth 32)
  | 0x03 => some s.rcnt
  | 0x04 => some (s.outlen.setWidth 32)
  | 0x05 => some (flagsRegister s)
  | 0x10 => some (BitVec.ofNat 32 s.params.numStates)
  | 0x11 => some (BitVec.ofNat 32 s.params.highbit)
  | 0x12 => some (BitVec.ofNat 32 s.params.minTb)
  | 0x13 => some (BitVec.ofNat 32 s.params.tbGroup)
  | 0x14 => some (BitVec.ofNat 32 s.params.cap)
  | 0x15 => some (BitVec.ofNat 32 s.params.renormInterval)
  | 0x16 => some (BitVec.ofNat 32 s.params.rate)
  | 0x17 => some (BitVec.ofNat 32 s.params.order)
  | 0x18 => some (BitVec.ofNat 32 s.params.outCap)
  | 0x19 => some (optionsRegister s)
  | _ => none

/-- A register number of R48's table, else `E_INDEX` (R222, R234). -/
def checkRegister (s : State) (r : Nat) : Option Cause := if (regValue s r).isSome then none else some .index

end Sys2Proof.Machine
end

