-- ==== Sys2Proof/Machine/Bmt.lean ====
section
/-! DEFINITION. The meanings of the branch-metric table commands (spec/42_bmt_commands.md R190 to R210). -/

namespace Sys2Proof.Machine

/-- `BM.TBLWR e, c` (R191): `TBL[e] <- c[RATE-1:0]`, once `c < 2^RATE` is checked. -/
def execBmTblwr (e : Nat) (c : BitVec 16) (s : State) : Host.Outcome State Fault Refusal :=
  command (firstOf (checkIndex e s.params.tblSize) (checkCodeword s c))
    (fun s => respond 0 { s with tbl := writeElem s.tbl e (c.setWidth 8) }) s

/-- `BM.TBLRD e` (R192): `respond(zext_32(TBL[e]))`. -/
def execBmTblrd (e : Nat) (s : State) : Host.Outcome State Fault Refusal :=
  command (checkIndex e s.params.tblSize) (respond ((readElem s.tbl e).setWidth 32)) s

/-- `BM.BUILD` (R196): `respond(zext_32(OUTLEN))`. -/
def execBmBuild (s : State) : Host.Outcome State Fault Refusal :=
  command none (fun s => respond ((buildTable s).outlen.setWidth 32) (buildTable s)) s

/-- `BM.GETKEY p` (R200): `respond(zext_32(KEYS[p]))`. -/
def execBmGetkey (p : Nat) (s : State) : Host.Outcome State Fault Refusal :=
  command (firstOf (checkBuilt s) (checkIndex p s.params.numPairs))
    (respond ((readElem s.keys p).setWidth 32)) s

/-- `BM.SYMWR i, d` (R202): `SYM[i] <- d`. -/
def execBmSymwr (i : Nat) (d : Distance) (s : State) : Host.Outcome State Fault Refusal :=
  command (checkIndex i s.params.numSymbols)
    (fun s => respond 0 { s with sym := writeElem s.sym i d }) s

/-- `BM.SYMRD i` (R203): `respond(zext_32(SYM[i]))`. -/
def execBmSymrd (i : Nat) (s : State) : Host.Outcome State Fault Refusal :=
  command (checkIndex i s.params.numSymbols) (respond ((readElem s.sym i).setWidth 32)) s

/-- `BM.FILL` (R205). -/
def execBmFill (s : State) : Host.Outcome State Fault Refusal :=
  command (checkBuilt s) (fun s => respond 0 (fillDistances s)) s

/-- `BM.GETDIST k` (R208): `respond(DIST[k])`. -/
def execBmGetdist (k : Nat) (s : State) : Host.Outcome State Fault Refusal :=
  command (firstOf (checkBuilt s) (checkIndex k s.outlen.toNat)) (respond (readElem s.dist k)) s

/-- `BM.GETOUT k` (R209): `respond(zext_32(OUTS[k]))`. -/
def execBmGetout (k : Nat) (s : State) : Host.Outcome State Fault Refusal :=
  command (firstOf (checkBuilt s) (checkIndex k s.outlen.toNat))
    (respond ((readElem s.outs k).setWidth 32)) s

end Sys2Proof.Machine
end

