-- ==== Sys2Proof/Machine/Dh.lean ====
section
/-! DEFINITION. The meanings of the decision-history commands (spec/41_dh_commands.md R150 to R179). -/

namespace Sys2Proof.Machine

/-- `DH.RESET` (R151). -/
def execDhReset (s : State) : Host.Outcome State Fault Refusal :=
  command none (fun s => respond 0 (resetHistory s)) s

/-- `DH.SLRD s` (R152): `respond(zext_32(HIST[IDX][s]))`. -/
def execDhSlrd (st : Nat) (s : State) : Host.Outcome State Fault Refusal :=
  command (checkIndex st s.params.numStates) (respond ((readEntry s s.idx.toNat st).setWidth 32)) s

/-- `DH.SLWR s, v` (R153): `HIST[IDX][s] <- v`. -/
def execDhSlwr (st : Nat) (v : Entry) (s : State) : Host.Outcome State Fault Refusal :=
  command (checkIndex st s.params.numStates) (fun s => respond 0 (writeEntry s.idx.toNat st v s)) s

/-- `DH.SEARCH stride, W` (R160): `respond(zext_32(best))`. -/
def execDhSearch (stride : Nat) (w : Bool) (s : State) : Host.Outcome State Fault Refusal :=
  command (checkStride stride) (respond (BitVec.ofNat 32 (search s w stride))) s

/-- `DH.RENORM ms, W` (R163). -/
def execDhRenorm (ms : Nat) (w : Bool) (s : State) : Host.Outcome State Fault Refusal :=
  command (checkIndex ms s.params.numStates) (fun s => respond 0 (renormalize w ms s)) s

/-- `DH.TRACEBACK best, mtb` (R166): `respond(zext_32(n))`. -/
def execDhTraceback (best mtb : Nat) (s : State) : Host.Outcome State Fault Refusal :=
  command (firstOf (checkIndex best s.params.numStates) (checkWarmup s mtb))
    (fun s => respondCount (traceback best mtb s)) s

/-- `DH.PROCSKIP skip, W` (R171): `respond(zext_32(n))`. -/
def execDhProcskip (skip : Nat) (w : Bool) (s : State) : Host.Outcome State Fault Refusal :=
  command (checkStride skip) (fun s => respondCount (procskip skip w s)) s

/-- `DH.PROC W` (R175): `procskip(1, W)`. -/
def execDhProc (w : Bool) (s : State) : Host.Outcome State Fault Refusal :=
  command none (fun s => respondCount (procskip 1 w s)) s

/-- `DH.FLUSH` (R177): `traceback(0, 0)`. -/
def execDhFlush (s : State) : Host.Outcome State Fault Refusal :=
  command none (fun s => respondCount (traceback 0 0 s)) s

end Sys2Proof.Machine
end

