-- ==== Sys2Proof/Machine/Pms.lean ====
section
/-! DEFINITION. The meanings of the path-metric store commands (spec/40_pms_commands.md R130 to R138). -/

namespace Sys2Proof.Machine

/-- `PM.RESET` (R131). -/
def execPmReset (s : State) : Host.Outcome State Fault Refusal :=
  command none (fun s => respond 0 (resetMetrics s)) s

/-- `PM.SWAP` (R132): `SEL <- 1 - SEL`. -/
def execPmSwap (s : State) : Host.Outcome State Fault Refusal :=
  command none (fun s => respond 0 { s with sel := !s.sel }) s

/-- `PM.RDC s` (R133): `respond(zext_32(PM[SEL][s]))`. -/
def execPmRdc (st : Nat) (s : State) : Host.Outcome State Fault Refusal :=
  command (checkIndex st s.params.numStates) (respond ((readMetric s false st).setWidth 32)) s

/-- `PM.WRC s, m` (R134): `PM[SEL][s] <- m`. -/
def execPmWrc (st : Nat) (m : Metric) (s : State) : Host.Outcome State Fault Refusal :=
  command (checkIndex st s.params.numStates) (fun s => respond 0 (writeMetric false st m s)) s

/-- `PM.RDO s` (R135): `respond(zext_32(PM[1 - SEL][s]))`. -/
def execPmRdo (st : Nat) (s : State) : Host.Outcome State Fault Refusal :=
  command (checkIndex st s.params.numStates) (respond ((readMetric s true st).setWidth 32)) s

/-- `PM.WRO s, m` (R136): `PM[1 - SEL][s] <- m`. -/
def execPmWro (st : Nat) (m : Metric) (s : State) : Host.Outcome State Fault Refusal :=
  command (checkIndex st s.params.numStates) (fun s => respond 0 (writeMetric true st m s)) s

end Sys2Proof.Machine
end

