-- ==== Sys2Proof/Machine/Sys.lean ====
section
/-! DEFINITION. The meanings of the system commands (spec/43_sys_commands.md R220 to R222). -/

namespace Sys2Proof.Machine

/-- `SYS.NOP` (R221): `respond(0)`. -/
def execSysNop (s : State) : Host.Outcome State Fault Refusal :=
  command none (respond 0) s

/-- `SYS.RDREG r` (R222): `respond(zext_32(REGMAP[r]))`. -/
def execSysRdreg (r : Nat) (s : State) : Host.Outcome State Fault Refusal :=
  command (checkRegister s r) (respond ((regValue s r).getD 0)) s

end Sys2Proof.Machine
end

