-- ==== Sys2Proof/Machine/Dispatch.lean ====
section
/-! DEFINITION. One arm per command, each one direct call of its meaning. -/

namespace Sys2Proof.Machine

def exec (i : Instr) (s : State) : Host.Outcome State Fault Refusal :=
  match i with
  | .sysNop => Sys2Proof.Machine.execSysNop s
  | .sysRdreg r => Sys2Proof.Machine.execSysRdreg r s
  | .pmReset => Sys2Proof.Machine.execPmReset s
  | .pmSwap => Sys2Proof.Machine.execPmSwap s
  | .pmRdc st => Sys2Proof.Machine.execPmRdc st s
  | .pmWrc st m => Sys2Proof.Machine.execPmWrc st m s
  | .pmRdo st => Sys2Proof.Machine.execPmRdo st s
  | .pmWro st m => Sys2Proof.Machine.execPmWro st m s
  | .dhReset => Sys2Proof.Machine.execDhReset s
  | .dhSlrd st => Sys2Proof.Machine.execDhSlrd st s
  | .dhSlwr st v => Sys2Proof.Machine.execDhSlwr st v s
  | .dhSearch stride w => Sys2Proof.Machine.execDhSearch stride w s
  | .dhRenorm ms w => Sys2Proof.Machine.execDhRenorm ms w s
  | .dhTraceback best mtb => Sys2Proof.Machine.execDhTraceback best mtb s
  | .dhProcskip skip w => Sys2Proof.Machine.execDhProcskip skip w s
  | .dhProc w => Sys2Proof.Machine.execDhProc w s
  | .dhFlush => Sys2Proof.Machine.execDhFlush s
  | .bmTblwr e c => Sys2Proof.Machine.execBmTblwr e c s
  | .bmTblrd e => Sys2Proof.Machine.execBmTblrd e s
  | .bmBuild => Sys2Proof.Machine.execBmBuild s
  | .bmGetkey p => Sys2Proof.Machine.execBmGetkey p s
  | .bmSymwr sy d => Sys2Proof.Machine.execBmSymwr sy d s
  | .bmSymrd sy => Sys2Proof.Machine.execBmSymrd sy s
  | .bmFill => Sys2Proof.Machine.execBmFill s
  | .bmGetdist k => Sys2Proof.Machine.execBmGetdist k s
  | .bmGetout k => Sys2Proof.Machine.execBmGetout k s

end Sys2Proof.Machine
end

