-- ==== Sys2Proof/Machine/Step.lean ====
section
/-! DEFINITION. One step: the next input, if any. A command word is decoded and run (spec/30_encoding.md R112); a
word that is no command takes its fault; an assertion of `RST` is hard reset (spec/70_reset_and_hazards.md R260);
with no input the block waits (spec/10_state.md R51, spec/60_exceptions.md R251). -/

namespace Sys2Proof.Machine

def step (s : State) : Host.Outcome State Fault Refusal :=
  match nextInput s with
  | none => .next (idle s)
  | some (.rst, t) => .next (hardReset t)
  | some (.cmd w, t) =>
    match decode w with
    | .command i => exec i t
    | .rejected r => .next (rejectWord r t)

/-- `s` with the table word `w` of `nbits` bits presented as the next input, so that the next step runs it. The block
fetches nothing (R22, R86): its commands are presented from outside, and this stands for the host presenting one
(log 7). -/
def State.withFetchWord (s : State) (nbits w : Nat) : State :=
  presentWord (BitVec.ofNat 48 (w % 2 ^ nbits)) s

end Sys2Proof.Machine
end

