-- ==== Sys2Proof/Safety.lean ====
section
/-! DEFINITION. What a safe run is, in the terms the claims use: the standing invariant of the block
(spec/10_state.md R33 to R38, R42, R43), runs of commands, and the spec's own closed descriptions that the claims
compare the loops of the machine with (the opcode list of R105, the registers of R48, the walk of R167, the slots of
R196 in order of first appearance). The machine imports nothing of this file. -/

namespace Sys2Proof.Machine

/-! ## The invariant -/

/-- What holds of the branch-metric table once it is built (R35 to R38, R198). -/
structure TableInv (s : State) : Prop where
  outlen_range : 2 ≤ s.outlen.toNat ∧ s.outlen.toNat ≤ s.params.outCap
  keys_range : ∀ p, p < s.params.numPairs →
    1 ≤ (readElem s.keys p).toNat ∧ (readElem s.keys p).toNat < s.outlen.toNat
  sentinel : readElem s.outs 0 = 0 ∧ readElem s.dist 0 = 0
  distinct : ∀ j k, 1 ≤ j → j < k → k < s.outlen.toNat → readElem s.outs j ≠ readElem s.outs k
  unused : ∀ k, s.outlen.toNat ≤ k → readElem s.outs k = 0 ∧ readElem s.dist k = 0

/-- The invariant of the block: array shapes; R33's ranges; the built table; `FCODE` is 0 exactly while `FAULT` is
0, and else one of the seven codes (R43, R231); `OUTLEN` is 0 before the first build (R37). -/
structure Inv (s : State) : Prop where
  memory : Memory.wf s = true
  idx_lt : s.idx.toNat < s.params.cap
  len_lt : s.len.toNat < s.params.cap
  rcnt_lt : s.rcnt.toNat < s.params.renormInterval
  unbuilt : s.built = false → s.outlen = 0
  table : s.built = true → TableInv s
  no_fault : s.fault = false → s.fcode = 0
  fault_code : s.fault = true → 1 ≤ s.fcode.toNat ∧ s.fcode.toNat ≤ 7

/-! ## Runs of commands -/

/-- A run of commands, each the meaning of one, stopping if the model stops. -/
def runCommands : List Instr → State → Host.Outcome State Fault Refusal
  | [], s => .next s
  | i :: rest, s =>
    match exec i s with
    | .next t => runCommands rest t
    | .fault r => .fault r
    | .refused r => .refused r

/-- The commands that commit a slice (R171, R175). -/
def commits : Instr → Bool
  | .dhProcskip _ _ => true
  | .dhProc _ => true
  | _ => false

/-- The commands that lower `LEN` otherwise (R151, R166, R177). -/
def drains : Instr → Bool
  | .dhReset => true
  | .dhTraceback _ _ => true
  | .dhFlush => true
  | _ => false

/-- The commands that only read (R250, with `SYS.NOP` and `DH.SEARCH`, whose rules say "State written: none"). -/
def onlyReads : Instr → Bool
  | .sysNop => true
  | .sysRdreg _ => true
  | .pmRdc _ => true
  | .pmRdo _ => true
  | .dhSlrd _ => true
  | .dhSearch _ _ => true
  | .bmTblrd _ => true
  | .bmGetkey _ => true
  | .bmSymrd _ => true
  | .bmGetdist _ => true
  | .bmGetout _ => true
  | _ => false

/-- What a completed command that changes nothing but its answer leaves: `s` with one response `00 r` more. -/
def answered (r : BitVec 32) (s : State) : State :=
  { s with outputs := s.outputs ++ [.response { st := 0x00, r := r }] }

/-! ## The encoding tables of the spec, as lists -/

/-- The 26 opcodes of R105, each with the reserved bits its row marks (spec/opcode_table.json,
`reserved_must_be_zero_mask`). -/
def opcodeRows : List (BitVec 8 × CommandWord) :=
  [(0x00, 0x00FFFFFFFFFF), (0x01, 0x00000000FFFF)] ++
  [(0x10, 0x00FFFFFFFFFF), (0x11, 0x00FFFFFFFFFF), (0x12, 0x00000000FFFF), (0x13, 0), (0x14, 0x00000000FFFF),
    (0x15, 0)] ++
  [(0x20, 0x00FFFFFFFFFF), (0x21, 0x00000000FFFF), (0x22, 0x00000000FF00), (0x23, 0x00000000FFFE),
    (0x24, 0x00000000FFFE), (0x25, 0), (0x26, 0x00000000FFFE), (0x27, 0x00FFFFFFFFFE), (0x28, 0x00FFFFFFFFFF)] ++
  [(0x30, 0), (0x31, 0x00000000FFFF), (0x32, 0x00FFFFFFFFFF), (0x33, 0x00000000FFFF), (0x34, 0),
    (0x35, 0x00000000FFFF), (0x36, 0x00FFFFFFFFFF), (0x37, 0x00000000FFFF), (0x38, 0x00000000FFFF)]

/-- The readable registers of R48 with the values they read as. -/
def registerTable (s : State) : List (Nat × Nat) :=
  [(0x00, if s.sel then 1 else 0), (0x01, s.idx.toNat), (0x02, s.len.toNat), (0x03, s.rcnt.toNat),
    (0x04, s.outlen.toNat), (0x05, if s.built then 1 else 0)] ++
  [(0x10, 2 ^ s.params.logStates), (0x11, 2 ^ s.params.logStates / 2), (0x12, s.params.minTb),
    (0x13, s.params.tbGroup), (0x14, s.params.minTb + s.params.tbGroup), (0x15, s.params.renormInterval),
    (0x16, s.params.rate), (0x17, s.params.order),
    (0x18, min (2 ^ (s.params.order - 1)) (2 ^ (2 * s.params.rate)) + 1),
    (0x19, if s.params.rstClearsRcnt then 1 else 0)]

/-! ## The walk of a traceback in closed form (R166, R167) -/

/-- The position step `j` reads: `(IDX - 1 - j) mod CAP` (R167), for `j < CAP`. -/
def walkPosition (s : State) (j : Nat) : Nat := (s.idx.toNat + s.params.cap - 1 - j) % s.params.cap

/-- The state before step `j` of the walk from `best`: `s <- (s | pathbit) >> 1` (R167). -/
def walkState (s : State) (best : Nat) : Nat → Nat
  | 0 => best
  | j + 1 =>
    (walkState s best j |||
      (if readEntry s (walkPosition s j) (walkState s best j) = 0 then 0 else s.params.numStates / 2)) / 2

/-- Whether the entry that step `j` reads is set (R168: the collected bit). -/
def walkBit (s : State) (best j : Nat) : Bool :=
  decide (readEntry s (walkPosition s j) (walkState s best j) ≠ 0)

/-- The batch `F` of a traceback: the bits of steps `mtb .. LEN-1`, in that order (R108, R166). -/
def walkBatch (s : State) (best mtb : Nat) : List Bool :=
  (List.range (s.len.toNat - mtb)).map fun k => walkBit s best (mtb + k)

/-! ## The pairs of a build in closed form (R196) -/

/-- The value of pair `p`: `TBL[2p+1]` above `TBL[2p]`. -/
def pairNumber (s : State) (p : Nat) : PairValue :=
  BitVec.ofNat 16 ((readElem s.tbl (2 * p + 1)).toNat * 2 ^ s.params.rate + (readElem s.tbl (2 * p)).toNat)

/-- All pair values, in the order of their indices. -/
def pairList (s : State) : List PairValue := (List.range s.params.numPairs).map (pairNumber s)

/-- The distinct values of a list in order of first appearance. -/
def firstSeen (l : List PairValue) : List PairValue :=
  l.foldl (fun acc v => if v ∈ acc then acc else acc ++ [v]) []

/-! ## Who may write what (R23, the column "written by") -/

/-- The commands R23 lists for `PM`. -/
def writesMetrics : Instr → Bool
  | .pmReset => true
  | .pmWrc _ _ => true
  | .pmWro _ _ => true
  | .dhRenorm _ _ => true
  | .dhProcskip _ _ => true
  | .dhProc _ => true
  | _ => false

/-- The commands R23 lists for `SEL`. -/
def writesSelect : Instr → Bool
  | .pmReset => true
  | .pmSwap => true
  | _ => false

/-- The commands R23 lists for `HIST`. -/
def writesHistory : Instr → Bool
  | .dhSlwr _ _ => true
  | _ => false

/-- The commands R23 lists for `IDX`. -/
def writesIndex : Instr → Bool
  | .dhReset => true
  | .dhProcskip _ _ => true
  | .dhProc _ => true
  | _ => false

/-- The commands R23 lists for `LEN`. -/
def writesLength : Instr → Bool
  | .dhReset => true
  | .dhProcskip _ _ => true
  | .dhProc _ => true
  | .dhTraceback _ _ => true
  | .dhFlush => true
  | _ => false

/-- The commands R23 lists for `RCNT`; `DH.RESET` only if `RST_CLEARS_RCNT = 1`. -/
def writesCounter (p : Params) : Instr → Bool
  | .dhProcskip _ _ => true
  | .dhProc _ => true
  | .dhReset => p.rstClearsRcnt
  | _ => false

/-- The commands R23 lists for `TBL`. -/
def writesTable : Instr → Bool
  | .bmTblwr _ _ => true
  | _ => false

/-- The commands R23 lists for `KEYS`, `OUTS`, `OUTLEN` and `BUILT`. -/
def writesKeys : Instr → Bool
  | .bmBuild => true
  | _ => false

/-- The commands R23 lists for `DIST`. -/
def writesDistances : Instr → Bool
  | .bmBuild => true
  | .bmFill => true
  | _ => false

/-- The commands R23 lists for `SYM`. -/
def writesSymbols : Instr → Bool
  | .bmSymwr _ _ => true
  | _ => false

end Sys2Proof.Machine
end

