-- ==== Sys2Proof/Certificates/Slice0/Obligations.lean ====
section
/-! DEFINITION. The statements for the provers. Each docstring names the rule of spec/ it formalises. A state
`s` ranges over every state, so over every legal instance of the block (`s.params`) and every array content. `Memory.wf`
and `Inv` appear only where a claim needs the arrays to have their lengths or R33's ranges; `StepKeepsInvariant` and
`HardResetMeetsInvariant` say that they always hold. -/

open Sys2Proof Sys2Proof.Machine

/-! ## Encoding -/

/-- R101, R105: no bit of a command is lost between a command and its word. -/
def Obligations.DecodeOfEncodeIsCommand : Prop :=
  ∀ i : Instr, i.wf = true → decode (encode i) = .command i

/-- R110 ("The block never ignores a bit"): a word that is a command is the only word of that command. -/
def Obligations.EncodeOfDecodeIsWord : Prop :=
  ∀ (w : CommandWord) (i : Instr), decode w = .command i → encode i = w ∧ i.wf = true

/-- Words of the spec's worked examples and vectors decode to the commands the spec says they are: R131, R133,
R134 (examples), R113's syntax, V-DH4, V-DH9, V-DH15, V-DH16, V-BM1, V-BM20, V-FP1. -/
def Obligations.SampleWordsDecode : Prop :=
  decode 0x100000000000 = .command .pmReset ∧
  decode 0x120000020000 = .command (.pmRdc 2) ∧
  decode 0x13000003FFFF = .command (.pmWrc 3 0xFFFF) ∧
  decode 0x23FFFFFF0000 = .command (.dhSearch 0xFFFFFF false) ∧
  decode 0x250000010002 = .command (.dhTraceback 1 2) ∧
  decode 0x260000010001 = .command (.dhProcskip 1 true) ∧
  decode 0x270000000001 = .command (.dhProc true) ∧
  decode 0x300000030001 = .command (.bmTblwr 3 1) ∧
  decode 0x3400000100FA = .command (.bmSymwr 1 250) ∧
  decode 0x010000060000 = .command (.sysRdreg 6) ∧
  decode 0x390000000000 = .rejected .illegalOp

/-! ## A step -/

/-- R112, R82: the next word presented, if it is a command, is run, on the state without it. -/
def Obligations.StepRunsDecodedCommand : Prop :=
  ∀ (s : State) (w : CommandWord) (rest : List Input) (i : Instr),
    s.input = .cmd w :: rest → decode w = .command i → step s = exec i { s with input := rest }

/-- R109, R232: a word whose `OP` is none of the 26 opcodes faults with code 1, whatever its operands; "no other state
changes" (R236). -/
def Obligations.UnknownOpcodeFaults : Prop :=
  ∀ (s : State) (w : CommandWord) (rest : List Input),
    s.input = .cmd w :: rest → s.fault = false → (∀ m, (opField w, m) ∉ opcodeRows) →
    step s = .next { s with
      input := rest, fault := true, fcode := 1,
      outputs := s.outputs ++ [.response { st := 0x81, r := 0 }] }

/-- R110, R235: a word of one of the 26 opcodes with a 1 in a bit its row marks reserved faults with code 2 "and does
nothing else". -/
def Obligations.ReservedBitFaults : Prop :=
  ∀ (s : State) (w m : CommandWord) (rest : List Input),
    s.input = .cmd w :: rest → s.fault = false → (opField w, m) ∈ opcodeRows → w &&& m ≠ 0 →
    step s = .next { s with
      input := rest, fault := true, fcode := 2,
      outputs := s.outputs ++ [.response { st := 0x82, r := 0 }] }

/-- The converse of the two above: a word of one of the 26 opcodes with no reserved bit set is a command (R105, R112). -/
def Obligations.CleanWordIsCommand : Prop :=
  ∀ (w m : CommandWord), (opField w, m) ∈ opcodeRows → w &&& m = 0 →
    ∃ i, decode w = .command i ∧ opcode i = opField w

/-- R260, R50: an assertion of `RST` puts every scalar and `PM` at its reset value, leaves arrays of the instance's
sizes (contents unspecified), and takes `OUT` as empty. That the inputs to come stay, and that the record of
responses is emptied with `OUT`, are the model's choices (log 10, log 4). -/
def Obligations.HardResetClearsBlock : Prop :=
  ∀ (s : State) (rest : List Input), s.input = .rst :: rest →
    ∃ t, step s = .next t ∧ t.params = s.params ∧
      t.pm0 = List.replicate s.params.numStates 0 ∧ t.pm1 = List.replicate s.params.numStates 0 ∧
      t.sel = false ∧ t.idx = 0 ∧ t.len = 0 ∧ t.rcnt = 0 ∧ t.outlen = 0 ∧ t.built = false ∧
      t.fault = false ∧ t.fcode = 0 ∧ t.out = [] ∧ t.outputs = [] ∧ t.input = rest ∧ Memory.wf t = true

/-- R51, R251: with nothing presented the block holds its state (the waiting step is the model's, log 3). -/
def Obligations.WaitingHoldsState : Prop :=
  ∀ s : State, s.input = [] → step s = .next s

/-- No state and no word stops the machine. The rules behind it are R225 ("Every command ends") and R112 (decoding is
total); that the model itself never stops, a fault of the block being a next state, is the model's reading (log 8). -/
def Obligations.StepAlwaysAnswers : Prop :=
  ∀ s : State, ∃ t, step s = .next t

/-- R8 ("never changed by any command"), R84: a step changes no parameter and consumes exactly the input presented. That
a step with nothing presented leaves the empty list (log 3), and that an assertion of `RST` leaves the inputs still to
come (log 10), are the model's choices. -/
def Obligations.StepKeepsParametersAndOrder : Prop :=
  ∀ s t : State, step s = .next t → t.params = s.params ∧ t.input = s.input.tail

/-- R107, R87, R106: a word gets exactly one response, after its batch if it has one; the response is `00 R` if the
block is not faulted afterwards, and `80 | FCODE` with `R = 0` if it is. -/
def Obligations.OneResponsePerWord : Prop :=
  ∀ (s t : State) (w : CommandWord) (rest : List Input),
    s.input = .cmd w :: rest → step s = .next t →
    ∃ (o : List Output) (x : Response), t.outputs = s.outputs ++ o ++ [.response x] ∧
      (o = [] ∨ ∃ bits, o = [.batch bits]) ∧
      (t.fault = false → x.st = 0x00) ∧
      (t.fault = true → o = [] ∧ x.st = 0x80 ||| t.fcode.setWidth 8 ∧ x.r = 0)

/-- R106 ("No other `ST` value is ever sent"): the status byte of every word's answer is 00 or 81 to 87. -/
def Obligations.StatusByteIsZeroOrFault : Prop :=
  ∀ (s t : State) (w : CommandWord) (rest : List Input) (x : Response),
    Inv s → s.input = .cmd w :: rest → step s = .next t → t.outputs.getLast? = some (.response x) →
    x.st.toNat = 0x00 ∨ (0x81 ≤ x.st.toNat ∧ x.st.toNat ≤ 0x87)

/-! ## Faults -/

/-- R231, R236: the seven codes, and everything fault entry does. -/
def Obligations.FaultEntryWritesCodeOnly : Prop :=
  (Cause.illegalOp.code = 1 ∧ Cause.reserved.code = 2 ∧ Cause.notBuilt.code = 3 ∧ Cause.index.code = 4 ∧
    Cause.stride0.code = 5 ∧ Cause.value.code = 6 ∧ Cause.tblen.code = 7) ∧
  ∀ (c : Cause) (s : State), takeFault c s = { s with
    fault := true, fcode := c.code,
    outputs := s.outputs ++ [.response { st := 0x80 ||| c.code.setWidth 8, r := 0 }] }

/-- R244, R42: while `FAULT = 1` every word, command or not, changes nothing and is answered with the stored code; and
a step leaves the fault only on `RST`. -/
def Obligations.FaultedBlockRefusesAll : Prop :=
  (∀ (s : State) (w : CommandWord) (rest : List Input), s.input = .cmd w :: rest → s.fault = true →
    step s = .next { s with
      input := rest, outputs := s.outputs ++ [.response { st := 0x80 ||| s.fcode.setWidth 8, r := 0 }] }) ∧
  ∀ s t : State, s.fault = true → step s = .next t → t.fault = false → ∃ rest, s.input = .rst :: rest

/-- R236, R243: a word that faults changes only `FAULT`, `FCODE`, and sends its one refusal: no array, no other
register, no batch. -/
def Obligations.FaultsArePrecise : Prop :=
  ∀ (s t : State) (w : CommandWord) (rest : List Input),
    s.input = .cmd w :: rest → s.fault = false → step s = .next t → t.fault = true →
    ∃ c : Cause, t = { s with
      input := rest, fault := true, fcode := c.code,
      outputs := s.outputs ++ [.response { st := 0x80 ||| c.code.setWidth 8, r := 0 }] }

/-- R242: the order of the checks: `BUILT` before the index, the check on `A` before the check on `B` (that `FAULT`
comes first, then `OP`, then the reserved bits, is `FaultedBlockRefusesAll`, `UnknownOpcodeFaults` and
`ReservedBitFaults`, which hold whatever the operands). -/
def Obligations.EarlierCheckWins : Prop :=
  ∀ s : State, s.fault = false →
    (s.built = false → ∀ n,
      exec (.bmGetkey n) s = .next (takeFault .notBuilt s) ∧
      exec (.bmGetdist n) s = .next (takeFault .notBuilt s) ∧
      exec (.bmGetout n) s = .next (takeFault .notBuilt s)) ∧
    (∀ e c, 2 ^ s.params.order ≤ e → exec (.bmTblwr e c) s = .next (takeFault .index s)) ∧
    (∀ best mtb, s.params.numStates ≤ best → exec (.dhTraceback best mtb) s = .next (takeFault .index s))

/-! ## System commands -/

/-- R221: `SYS.NOP` does nothing but answer 0; both fields are reserved; while `FAULT = 1` it is refused with the
stored code. -/
def Obligations.NopOnlyAnswers : Prop :=
  (∀ a b, decode (commandWord 0x00 a b) = if a = 0 ∧ b = 0 then .command .sysNop else .rejected .reserved) ∧
  ∀ s : State, (s.fault = false → exec .sysNop s = .next (answered 0 s)) ∧
    (s.fault = true → exec .sysNop s = .next { s with
      outputs := s.outputs ++ [.response { st := 0x80 ||| s.fcode.setWidth 8, r := 0 }] })

/-- R222, R48: `SYS.RDREG` answers the numbered register or parameter, zero-extended, and changes nothing; any other
number is `E_INDEX`. -/
def Obligations.RegisterReadAnswersTable : Prop :=
  (∀ a b, decode (commandWord 0x01 a b) = if b = 0 then .command (.sysRdreg a.toNat) else .rejected .reserved) ∧
  ∀ s : State, s.fault = false →
    (∀ r v, (r, v) ∈ registerTable s → exec (.sysRdreg r) s = .next (answered (BitVec.ofNat 32 v) s)) ∧
    (∀ r, (∀ v, (r, v) ∉ registerTable s) → exec (.sysRdreg r) s = .next (takeFault .index s))

/-! ## Path-metric store -/

/-- R131: `PM.RESET` zeroes both buffers and selects buffer 0, and touches nothing else. -/
def Obligations.MetricResetZeroesBothBuffers : Prop :=
  (∀ a b, decode (commandWord 0x10 a b) = if a = 0 ∧ b = 0 then .command .pmReset else .rejected .reserved) ∧
  ∀ s : State, s.fault = false →
    exec .pmReset s = .next (answered 0 { s with
      pm0 := List.replicate s.params.numStates 0, pm1 := List.replicate s.params.numStates 0, sel := false })

/-- R132: `PM.SWAP` toggles `SEL` and copies nothing: what the other buffer held is what the current one holds now, and
two swaps restore the mapping. -/
def Obligations.SwapTogglesSelectOnly : Prop :=
  (∀ a b, decode (commandWord 0x11 a b) = if a = 0 ∧ b = 0 then .command .pmSwap else .rejected .reserved) ∧
  ∀ s : State, s.fault = false →
    ∃ t, exec .pmSwap s = .next t ∧ t = answered 0 { s with sel := !s.sel } ∧
      (∀ w i, readMetric t w i = readMetric s (!w) i) ∧
      ∃ u, exec .pmSwap t = .next u ∧ u = answered 0 (answered 0 s)

/-- R133, R135: `PM.RDC` answers the metric of `PM[SEL]`, `PM.RDO` that of `PM[1 - SEL]`; neither changes anything; a
state index at or above `NUM_STATES` is `E_INDEX`; after `PM.RESET` or hard reset every state reads 0. -/
def Obligations.MetricReadsAnswerBuffers : Prop :=
  (∀ a b, decode (commandWord 0x12 a b) = if b = 0 then .command (.pmRdc a.toNat) else .rejected .reserved) ∧
  (∀ a b, decode (commandWord 0x14 a b) = if b = 0 then .command (.pmRdo a.toNat) else .rejected .reserved) ∧
  ∀ (s : State) (st : Nat), s.fault = false →
    (st < s.params.numStates →
      exec (.pmRdc st) s = .next (answered ((readElem (if s.sel then s.pm1 else s.pm0) st).setWidth 32) s) ∧
      exec (.pmRdo st) s = .next (answered ((readElem (if s.sel then s.pm0 else s.pm1) st).setWidth 32) s)) ∧
    (s.params.numStates ≤ st →
      exec (.pmRdc st) s = .next (takeFault .index s) ∧ exec (.pmRdo st) s = .next (takeFault .index s)) ∧
    (∀ z, (exec .pmReset s = .next z ∨ ∃ rest, s.input = .rst :: rest ∧ step s = .next z) → st < s.params.numStates →
      exec (.pmRdc st) z = .next (answered 0 z) ∧ exec (.pmRdo st) z = .next (answered 0 z))

/-- R134, R136: `PM.WRC` (`w = false`) and `PM.WRO` (`w = true`) store the metric at the named state of the current or
the other buffer, leave every other metric of both buffers and everything else as it was, and answer 0; an index out of
range is `E_INDEX`. -/
def Obligations.MetricWritesStoreOneMetric : Prop :=
  (∀ a b, decode (commandWord 0x13 a b) = .command (.pmWrc a.toNat b)) ∧
  (∀ a b, decode (commandWord 0x15 a b) = .command (.pmWro a.toNat b)) ∧
  ∀ (s : State) (w : Bool) (st : Nat) (m : Metric), s.fault = false → Memory.wf s = true →
    (st < s.params.numStates →
      ∃ t, exec (if w then .pmWro st m else .pmWrc st m) s = .next t ∧
        readMetric t w st = m ∧ (∀ v j, (v, j) ≠ (w, st) → readMetric t v j = readMetric s v j) ∧
        t.outputs = s.outputs ++ [.response { st := 0x00, r := 0 }] ∧ Memory.wf t = true ∧
        { t with pm0 := s.pm0, pm1 := s.pm1, outputs := s.outputs } = s) ∧
    (s.params.numStates ≤ st → exec (if w then .pmWro st m else .pmWrc st m) s = .next (takeFault .index s))

/-- R137 (derived there): double-buffer isolation, as the answers of a run of ten commands. -/
def Obligations.DoubleBufferIsolation : Prop :=
  ∀ (s : State) (st : Nat) (m m' : Metric), s.fault = false → Memory.wf s = true → st < s.params.numStates →
    ∃ t, runCommands [.pmWrc st m, .pmWro st m', .pmRdc st, .pmRdo st, .pmSwap, .pmRdc st, .pmRdo st,
        .pmSwap, .pmRdc st, .pmRdo st] s = .next t ∧
      t.responses = s.responses ++ ([0, 0, m, m', 0, m', m, 0, m, m'] : List Metric).map
        fun v => { st := 0x00, r := v.setWidth 32 }

/-! ## Decision history -/

/-- R151: `DH.RESET` writes `LEN`, `IDX`, and `RCNT` only if `RST_CLEARS_RCNT = 1`; `HIST`, `PM`, `SEL` stay. -/
def Obligations.HistoryResetEmptiesHistory : Prop :=
  (∀ a b, decode (commandWord 0x20 a b) = if a = 0 ∧ b = 0 then .command .dhReset else .rejected .reserved) ∧
  ∀ s : State, s.fault = false →
    exec .dhReset s = .next (answered 0 { s with
      len := 0, idx := 0, rcnt := if s.params.rstClearsRcnt = true then 0 else s.rcnt })

/-- R152: `DH.SLRD` answers the entry of the uncommitted slice and changes nothing. -/
def Obligations.SliceReadAnswersEntry : Prop :=
  (∀ a b, decode (commandWord 0x21 a b) = if b = 0 then .command (.dhSlrd a.toNat) else .rejected .reserved) ∧
  ∀ (s : State) (st : Nat), s.fault = false →
    (st < s.params.numStates →
      exec (.dhSlrd st) s = .next (answered ((readElem (s.hist.getD s.idx.toNat []) st).setWidth 32) s)) ∧
    (s.params.numStates ≤ st → exec (.dhSlrd st) s = .next (takeFault .index s))

/-- R153: `DH.SLWR` stores any byte, unchanged, at the named state of the slice at `IDX`; every other entry of every
slice, `IDX`, `LEN` and everything else stay. -/
def Obligations.SliceWriteStoresOneEntry : Prop :=
  (∀ a b, decode (commandWord 0x22 a b) =
    if b.toNat < 256 then .command (.dhSlwr a.toNat (b.setWidth 8)) else .rejected .reserved) ∧
  ∀ (s : State) (st : Nat) (v : Entry), s.fault = false → Memory.wf s = true → s.idx.toNat < s.params.cap →
    (st < s.params.numStates →
      ∃ t, exec (.dhSlwr st v) s = .next t ∧ readEntry t s.idx.toNat st = v ∧
        (∀ p j, (p, j) ≠ (s.idx.toNat, st) → readEntry t p j = readEntry s p j) ∧
        t.outputs = s.outputs ++ [.response { st := 0x00, r := 0 }] ∧ Memory.wf t = true ∧
        { t with hist := s.hist, outputs := s.outputs } = s) ∧
    (s.params.numStates ≤ st → exec (.dhSlwr st v) s = .next (takeFault .index s))

/-- R160 (and R162): `DH.SEARCH` answers the state of least metric among `0, stride, 2*stride, ...` of `BUF(W)`, the
lowest index winning ties, and changes nothing; a stride of 0 is `E_STRIDE0`. -/
def Obligations.SearchAnswersLowestBest : Prop :=
  (∀ a b, decode (commandWord 0x23 a b) =
    if b.toNat < 2 then .command (.dhSearch a.toNat (b.getLsbD 0)) else .rejected .reserved) ∧
  ∀ (s : State) (stride : Nat) (w : Bool), s.fault = false →
    (1 ≤ stride →
      ∃ best, exec (.dhSearch stride w) s = .next (answered (BitVec.ofNat 32 best) s) ∧
        best < s.params.numStates ∧ stride ∣ best ∧
        (∀ c, stride ∣ c → c < s.params.numStates → (readMetric s w best).toNat ≤ (readMetric s w c).toNat) ∧
        (∀ c, stride ∣ c → c < best → (readMetric s w best).toNat < (readMetric s w c).toNat)) ∧
    (stride = 0 → exec (.dhSearch stride w) s = .next (takeFault .stride0 s))

/-- R161: "if every scanned state holds `0xFFFF` the result is 0": state 0 beats the sentinel. -/
def Obligations.SearchAllOnesAnswersZero : Prop :=
  ∀ (s : State) (stride : Nat) (w : Bool), s.fault = false → 1 ≤ stride →
    (∀ c, stride ∣ c → c < s.params.numStates → readMetric s w c = 0xFFFF) →
    exec (.dhSearch stride w) s = .next (answered 0 s)

/-- R163: `DH.RENORM` subtracts the metric of `minState` from every entry of `BUF(W)` modulo 2^16; the other buffer and
everything else stay. -/
def Obligations.RenormalizeSubtractsFromBuffer : Prop :=
  (∀ a b, decode (commandWord 0x24 a b) =
    if b.toNat < 2 then .command (.dhRenorm a.toNat (b.getLsbD 0)) else .rejected .reserved) ∧
  ∀ (s : State) (ms : Nat) (w : Bool), s.fault = false → Memory.wf s = true →
    (ms < s.params.numStates →
      ∃ t, exec (.dhRenorm ms w) s = .next t ∧
        (∀ i, i < s.params.numStates → (readMetric t w i).toNat =
          ((readMetric s w i).toNat + 2 ^ 16 - (readMetric s w ms).toNat) % 2 ^ 16) ∧
        (∀ i, readMetric t (!w) i = readMetric s (!w) i) ∧
        t.outputs = s.outputs ++ [.response { st := 0x00, r := 0 }] ∧ Memory.wf t = true ∧
        { t with pm0 := s.pm0, pm1 := s.pm1, outputs := s.outputs } = s) ∧
    (s.params.numStates ≤ ms → exec (.dhRenorm ms w) s = .next (takeFault .index s))

/-- R164: after a renormalization the metric of `minState` is 0 and every difference of two metrics modulo 2^16 is as
before. -/
def Obligations.RenormalizeKeepsDifferences : Prop :=
  ∀ (s t : State) (ms : Nat) (w : Bool), s.fault = false → Memory.wf s = true → ms < s.params.numStates →
    exec (.dhRenorm ms w) s = .next t →
    readMetric t w ms = 0 ∧
    ∀ a b, a < s.params.numStates → b < s.params.numStates →
      readMetric t w a - readMetric t w b = readMetric s w a - readMetric s w b

/-- R166, R167, R168, R108: `DH.TRACEBACK` hands over one batch, the decisions of steps `mtb .. LEN-1` of the walk,
newest first, then answers their number; `LEN` becomes `mtb` and nothing else changes; `OUT` grows by the batch
reversed (R47). The ranges of `IDX` and `LEN` are R33's, or `LEN = CAP`. -/
def Obligations.TracebackEmitsWalk : Prop :=
  (∀ a b, decode (commandWord 0x25 a b) = .command (.dhTraceback a.toNat b.toNat)) ∧
  ∀ (s : State) (best mtb : Nat), s.fault = false → s.idx.toNat < s.params.cap → s.len.toNat ≤ s.params.cap →
    (best < s.params.numStates → mtb ≤ s.len.toNat →
      ∃ t, exec (.dhTraceback best mtb) s = .next t ∧
        t = answered (BitVec.ofNat 32 (s.len.toNat - mtb)) { s with
          len := BitVec.ofNat 16 mtb, outputs := s.outputs ++ [.batch (walkBatch s best mtb)] } ∧
        (walkBatch s best mtb).length = s.len.toNat - mtb ∧ t.out = s.out ++ (walkBatch s best mtb).reverse) ∧
    (s.params.numStates ≤ best → exec (.dhTraceback best mtb) s = .next (takeFault .index s)) ∧
    (best < s.params.numStates → s.len.toNat < mtb →
      exec (.dhTraceback best mtb) s = .next (takeFault .tblen s))

/-- R169 (derived there): a step of the walk leads from every state below `NUM_STATES`, by every entry, to one below
`max(NUM_STATES/2, 1)`; so a traceback reads, in range, the entry of `best` in the newest slice and else only entries of
states below that bound: two blocks that agree on those entries (and on the instance, `IDX`, `LEN`, `FAULT`) hand over
equal batches, whatever their other entries hold. -/
def Obligations.WalkStaysInRange : Prop :=
  (∀ (p : Params) (st : Nat) (d : Entry), st < p.numStates →
    pathStep p.highbit st d < max (p.numStates / 2) 1) ∧
  ∀ (s u s' u' : State) (best mtb : Nat),
    s.params = u.params → s.idx = u.idx → s.len = u.len → s.fault = u.fault →
    s.idx.toNat < s.params.cap → s.len.toNat ≤ s.params.cap →
    (∀ p i, p < s.params.cap →
      (i < max (s.params.numStates / 2) 1 ∨ p = (s.idx.toNat + s.params.cap - 1) % s.params.cap ∧ i = best) →
      readEntry s p i = readEntry u p i) →
    exec (.dhTraceback best mtb) s = .next s' → exec (.dhTraceback best mtb) u = .next u' →
    ∃ o, s'.batches = s.batches ++ o ∧ u'.batches = u.batches ++ o

/-- R169 (derived there): a traceback is a function of `HIST`, `IDX`, `LEN`, its operands and the instance: two states
that agree on those hand over equal batches. -/
def Obligations.TracebackIsDeterministic : Prop :=
  ∀ (s u s' u' : State) (best mtb : Nat),
    s.params = u.params → s.hist = u.hist → s.idx = u.idx → s.len = u.len → s.fault = u.fault →
    exec (.dhTraceback best mtb) s = .next s' → exec (.dhTraceback best mtb) u = .next u' →
    ∃ o, s'.batches = s.batches ++ o ∧ u'.batches = u.batches ++ o

/-- R171, R172: the four actions of `DH.PROCSKIP`, tested after the three increments: (a) nothing more, (b)
renormalize, (c) one search, renormalize, trace back from the same state, (d) search, trace back; a stride of 0 is
`E_STRIDE0` before anything moves. `search` and `renormalize` are the bodies of R160 and R163, the traceback is the
command's (R166). -/
def Obligations.ProcessTakesOneOfFourActions : Prop :=
  (∀ a b, decode (commandWord 0x26 a b) =
    if b.toNat < 2 then .command (.dhProcskip a.toNat (b.getLsbD 0)) else .rejected .reserved) ∧
  ∀ (s c : State) (skip : Nat) (w : Bool), s.fault = false → Inv s →
    c = { s with
      idx := BitVec.ofNat 16 (if s.idx.toNat + 1 = s.params.cap then 0 else s.idx.toNat + 1)
      len := BitVec.ofNat 16 (s.len.toNat + 1)
      rcnt := BitVec.ofNat 32 (s.rcnt.toNat + 1) } →
    (skip = 0 → exec (.dhProcskip skip w) s = .next (takeFault .stride0 s)) ∧
    (1 ≤ skip → s.rcnt.toNat + 1 ≠ s.params.renormInterval → s.len.toNat + 1 < s.params.cap →
      exec (.dhProcskip skip w) s = .next (answered 0 c)) ∧
    (1 ≤ skip → s.rcnt.toNat + 1 = s.params.renormInterval → s.len.toNat + 1 < s.params.cap →
      exec (.dhProcskip skip w) s = .next (answered 0 (renormalize w (search c w skip) { c with rcnt := 0 }))) ∧
    (1 ≤ skip → s.rcnt.toNat + 1 = s.params.renormInterval → s.len.toNat + 1 = s.params.cap →
      exec (.dhProcskip skip w) s =
        exec (.dhTraceback (search c w skip) s.params.minTb)
          (renormalize w (search c w skip) { c with rcnt := 0 })) ∧
    (1 ≤ skip → s.rcnt.toNat + 1 ≠ s.params.renormInterval → s.len.toNat + 1 = s.params.cap →
      exec (.dhProcskip skip w) s = exec (.dhTraceback (search c w skip) s.params.minTb) c)

/-- R173, R33: `DH.PROCSKIP` completes for every stride of at least 1; `IDX` advances modulo `CAP`; `LEN` never passes
`CAP`: a traceback fires exactly when it would reach it, emits `TB_GROUP` bits and leaves `MIN_TB`; `RCNT` counts and is
cleared exactly when it reaches the interval; the answer is the number of bits emitted. -/
def Obligations.ProcessCountsAndEmits : Prop :=
  ∀ (s : State) (skip : Nat) (w : Bool), s.fault = false → Inv s → 1 ≤ skip →
    ∃ t, exec (.dhProcskip skip w) s = .next t ∧ t.fault = false ∧ Inv t ∧ t.params = s.params ∧
      t.idx.toNat = (s.idx.toNat + 1) % s.params.cap ∧
      t.len.toNat = (if s.len.toNat + 1 = s.params.cap then s.params.minTb else s.len.toNat + 1) ∧
      t.rcnt.toNat = (if s.rcnt.toNat + 1 = s.params.renormInterval then 0 else s.rcnt.toNat + 1) ∧
      t.out.length = s.out.length + (if s.len.toNat + 1 = s.params.cap then s.params.tbGroup else 0) ∧
      t.outputs.getLast? = some (.response
        { st := 0x00, r := BitVec.ofNat 32 (if s.len.toNat + 1 = s.params.cap then s.params.tbGroup else 0) }) ∧
      t.hist = s.hist ∧ t.sel = s.sel ∧ (∀ i, readMetric t (!w) i = readMetric s (!w) i) ∧
      t.tbl = s.tbl ∧ t.keys = s.keys ∧ t.outs = s.outs ∧ t.outlen = s.outlen ∧ t.dist = s.dist ∧
      t.sym = s.sym ∧ t.built = s.built ∧ t.fcode = s.fcode ∧ t.input = s.input

/-- R175, R114: `DH.PROC W` is `DH.PROCSKIP 1, W`; it completes in every state that is not faulted, so it cannot raise
`E_STRIDE0`. -/
def Obligations.ProcessIsStrideOne : Prop :=
  (∀ a b, decode (commandWord 0x27 a b) =
    if a = 0 ∧ b.toNat < 2 then .command (.dhProc (b.getLsbD 0)) else .rejected .reserved) ∧
  ∀ (s : State) (w : Bool), exec (.dhProc w) s = exec (.dhProcskip 1 w) s ∧
    (s.fault = false → ∃ t, exec (.dhProc w) s = .next t ∧ t.fault = false ∧
      t.params = s.params ∧ t.sel = s.sel ∧ t.hist = s.hist ∧ t.tbl = s.tbl ∧ t.keys = s.keys ∧ t.outs = s.outs ∧
      t.outlen = s.outlen ∧ t.dist = s.dist ∧ t.sym = s.sym ∧ t.built = s.built ∧ t.fcode = s.fcode ∧
      t.input = s.input ∧ ∀ i, readMetric t (!w) i = readMetric s (!w) i)

/-- R177, R114: `DH.FLUSH` is the traceback from state 0 with no warm-up: one batch of all `LEN` valid slices, `LEN`
becomes 0, nothing else changes; it cannot raise `E_INDEX` or `E_TBLEN`. -/
def Obligations.FlushDrainsFromZero : Prop :=
  (∀ a b, decode (commandWord 0x28 a b) = if a = 0 ∧ b = 0 then .command .dhFlush else .rejected .reserved) ∧
  (∀ s : State, exec .dhFlush s = exec (.dhTraceback 0 0) s) ∧
  ∀ s : State, s.fault = false → s.idx.toNat < s.params.cap → s.len.toNat ≤ s.params.cap →
    exec .dhFlush s = .next (answered (s.len.setWidth 32) { s with
      len := 0, outputs := s.outputs ++ [.batch (walkBatch s 0 0)] })

/-- R179 (derived there): conservation of bits. From `LEN = 0`, a run of any commands but `DH.RESET`, `DH.TRACEBACK` and
`DH.FLUSH` that ends with one `DH.FLUSH` and raises no fault appends to `OUT` exactly one bit for each
`DH.PROCSKIP`/`DH.PROC` in it. -/
def Obligations.BitsAreConserved : Prop :=
  ∀ (cs : List Instr) (s t : State), Inv s → s.fault = false → s.len = 0 →
    (∀ i ∈ cs, drains i = false) → runCommands (cs ++ [.dhFlush]) s = .next t → t.fault = false →
    t.out.length = s.out.length + cs.countP commits

/-- R264 (derived there): `PM.SWAP; DH.PROC W=0` and `DH.PROC W=1; PM.SWAP` leave the same block state and hand over the
same batches. -/
def Obligations.StepOrdersAgree : Prop :=
  ∀ s : State, ∃ t u, runCommands [.pmSwap, .dhProc false] s = .next t ∧
    runCommands [.dhProc true, .pmSwap] s = .next u ∧
    { t with outputs := [] } = { u with outputs := [] } ∧ t.batches = u.batches ∧ t.out = u.out

/-! ## Branch-metric table -/

/-- R191, R238: `BM.TBLWR` stores a codeword below `2^RATE` at one flat index; every other entry, the last build's
contents and everything else stay; `E_INDEX` and `E_VALUE` as R234 and R238 say. -/
def Obligations.TableWriteStoresOneCodeword : Prop :=
  (∀ a b, decode (commandWord 0x30 a b) = .command (.bmTblwr a.toNat b)) ∧
  ∀ (s : State) (e : Nat) (c : BitVec 16), s.fault = false → Memory.wf s = true →
    (e < 2 ^ s.params.order → c.toNat < 2 ^ s.params.rate →
      ∃ t, exec (.bmTblwr e c) s = .next t ∧ (readElem t.tbl e).toNat = c.toNat ∧
        (∀ j, j ≠ e → readElem t.tbl j = readElem s.tbl j) ∧
        t.outputs = s.outputs ++ [.response { st := 0x00, r := 0 }] ∧ Memory.wf t = true ∧
        { t with tbl := s.tbl, outputs := s.outputs } = s) ∧
    (2 ^ s.params.order ≤ e → exec (.bmTblwr e c) s = .next (takeFault .index s)) ∧
    (e < 2 ^ s.params.order → 2 ^ s.params.rate ≤ c.toNat → exec (.bmTblwr e c) s = .next (takeFault .value s))

/-- R192, R203: `BM.TBLRD` and `BM.SYMRD` answer one entry and change nothing. -/
def Obligations.StagingReadsAnswerEntry : Prop :=
  (∀ a b, decode (commandWord 0x31 a b) = if b = 0 then .command (.bmTblrd a.toNat) else .rejected .reserved) ∧
  (∀ a b, decode (commandWord 0x35 a b) = if b = 0 then .command (.bmSymrd a.toNat) else .rejected .reserved) ∧
  ∀ (s : State) (n : Nat), s.fault = false →
    (n < 2 ^ s.params.order → exec (.bmTblrd n) s = .next (answered ((readElem s.tbl n).setWidth 32) s)) ∧
    (2 ^ s.params.order ≤ n → exec (.bmTblrd n) s = .next (takeFault .index s)) ∧
    (n < 2 ^ s.params.rate → exec (.bmSymrd n) s = .next (answered ((readElem s.sym n).setWidth 32) s)) ∧
    (2 ^ s.params.rate ≤ n → exec (.bmSymrd n) s = .next (takeFault .index s))

/-- R202: `BM.SYMWR` stores any 16-bit distance at one symbol; every other symbol, `DIST` and everything else stay. -/
def Obligations.SymbolWriteStoresOneDistance : Prop :=
  (∀ a b, decode (commandWord 0x34 a b) = .command (.bmSymwr a.toNat b)) ∧
  ∀ (s : State) (n : Nat) (d : Distance), s.fault = false → Memory.wf s = true →
    (n < 2 ^ s.params.rate →
      ∃ t, exec (.bmSymwr n d) s = .next t ∧ readElem t.sym n = d ∧
        (∀ j, j ≠ n → readElem t.sym j = readElem s.sym j) ∧
        t.outputs = s.outputs ++ [.response { st := 0x00, r := 0 }] ∧ Memory.wf t = true ∧
        { t with sym := s.sym, outputs := s.outputs } = s) ∧
    (2 ^ s.params.rate ≤ n → exec (.bmSymwr n d) s = .next (takeFault .index s))

/-- R196, R197: `BM.BUILD` gives each distinct pair value, the all-zero one too, the next slot from 1 at its first
appearance in increasing pair order; `KEYS[p]` is the slot of pair `p`'s value; slot 0 and the unused slots hold 0;
`DIST` is cleared; `BUILT` is set; the answer is `OUTLEN`; nothing else changes. -/
def Obligations.BuildAssignsSlotsInOrder : Prop :=
  (∀ a b, decode (commandWord 0x32 a b) = if a = 0 ∧ b = 0 then .command .bmBuild else .rejected .reserved) ∧
  ∀ s : State, s.fault = false → Memory.wf s = true →
    exec .bmBuild s = .next (answered (BitVec.ofNat 32 (1 + (firstSeen (pairList s)).length)) { s with
      keys := (pairList s).map fun v => BitVec.ofNat 16 (1 + (firstSeen (pairList s)).idxOf v)
      outs := 0 :: (firstSeen (pairList s) ++
        List.replicate (s.params.outCap - 1 - (firstSeen (pairList s)).length) 0)
      outlen := BitVec.ofNat 16 (1 + (firstSeen (pairList s)).length)
      dist := List.replicate s.params.outCap 0
      built := true })

/-- R198 (derived there): the laws of a build. -/
def Obligations.BuildLaws : Prop :=
  ∀ s t : State, s.fault = false → Memory.wf s = true → exec .bmBuild s = .next t →
    (∀ p, p < 2 ^ (s.params.order - 1) →
      1 ≤ (readElem t.keys p).toNat ∧ (readElem t.keys p).toNat < t.outlen.toNat ∧
      (readElem t.outs (readElem t.keys p).toNat).toNat =
        (readElem s.tbl (2 * p + 1)).toNat * 2 ^ s.params.rate + (readElem s.tbl (2 * p)).toNat) ∧
    (∀ j k, 1 ≤ j → j < k → k < t.outlen.toNat → readElem t.outs j ≠ readElem t.outs k) ∧
    2 ≤ t.outlen.toNat ∧
    t.outlen.toNat ≤ min (2 ^ (s.params.order - 1)) (2 ^ (2 * s.params.rate)) + 1 ∧
    (readElem t.keys 0).toNat = 1

/-- R199: a build is a function of `TBL` (and the instance) alone: from states that agree on those the tables are equal,
whatever was built before. -/
def Obligations.BuildDependsOnTableOnly : Prop :=
  ∀ s u s' u' : State, s.params = u.params → s.tbl = u.tbl → s.fault = false → u.fault = false →
    exec .bmBuild s = .next s' → exec .bmBuild u = .next u' →
    s'.keys = u'.keys ∧ s'.outs = u'.outs ∧ s'.outlen = u'.outlen ∧ s'.dist = u'.dist ∧ s'.built = u'.built

/-- R200: `BM.GETKEY` answers the key of a pair and changes nothing; before a build it is `E_NOTBUILT`, whatever the
index; with the invariant the answer is never 0. -/
def Obligations.KeyLookupAnswersKey : Prop :=
  (∀ a b, decode (commandWord 0x33 a b) = if b = 0 then .command (.bmGetkey a.toNat) else .rejected .reserved) ∧
  ∀ (s : State) (p : Nat), s.fault = false →
    (s.built = true → p < 2 ^ (s.params.order - 1) →
      exec (.bmGetkey p) s = .next (answered ((readElem s.keys p).setWidth 32) s) ∧
      (Inv s → (readElem s.keys p).toNat ≠ 0)) ∧
    (s.built = false → exec (.bmGetkey p) s = .next (takeFault .notBuilt s)) ∧
    (s.built = true → 2 ^ (s.params.order - 1) ≤ p → exec (.bmGetkey p) s = .next (takeFault .index s))

/-- R208, R209: `BM.GETDIST` and `BM.GETOUT` answer the packed distance and the pair of a used slot and change nothing;
with the invariant slot 0 answers 0; `E_NOTBUILT` before a build, `E_INDEX` from `OUTLEN` on. -/
def Obligations.SlotLookupsAnswerSlot : Prop :=
  (∀ a b, decode (commandWord 0x37 a b) = if b = 0 then .command (.bmGetdist a.toNat) else .rejected .reserved) ∧
  (∀ a b, decode (commandWord 0x38 a b) = if b = 0 then .command (.bmGetout a.toNat) else .rejected .reserved) ∧
  ∀ (s : State) (k : Nat), s.fault = false →
    (s.built = true → k < s.outlen.toNat →
      exec (.bmGetdist k) s = .next (answered (readElem s.dist k) s) ∧
      exec (.bmGetout k) s = .next (answered ((readElem s.outs k).setWidth 32) s) ∧
      (Inv s → k = 0 → readElem s.dist k = 0 ∧ readElem s.outs k = 0)) ∧
    (s.built = false →
      exec (.bmGetdist k) s = .next (takeFault .notBuilt s) ∧ exec (.bmGetout k) s = .next (takeFault .notBuilt s)) ∧
    (s.built = true → s.outlen.toNat ≤ k →
      exec (.bmGetdist k) s = .next (takeFault .index s) ∧ exec (.bmGetout k) s = .next (takeFault .index s))

/-- R205, R206, R210: `BM.FILL` packs, for every used slot, the distance of the even entry's symbol in the low lane and
of the next entry's in the high lane; `DIST[0]`, the unused slots and everything else stay; before a build it is
`E_NOTBUILT`. -/
def Obligations.FillPacksSymbolDistances : Prop :=
  (∀ a b, decode (commandWord 0x36 a b) = if a = 0 ∧ b = 0 then .command .bmFill else .rejected .reserved) ∧
  ∀ s : State, s.fault = false → Inv s →
    (s.built = true →
      ∃ t, exec .bmFill s = .next t ∧
        (∀ k, 1 ≤ k → k < s.outlen.toNat →
          laneLow (readElem t.dist k) = readElem s.sym ((readElem s.outs k).toNat % 2 ^ s.params.rate) ∧
          laneHigh (readElem t.dist k) = readElem s.sym ((readElem s.outs k).toNat / 2 ^ s.params.rate)) ∧
        readElem t.dist 0 = readElem s.dist 0 ∧ readElem t.dist 0 = 0 ∧
        (∀ k, s.outlen.toNat ≤ k → readElem t.dist k = readElem s.dist k ∧ readElem t.dist k = 0) ∧
        t.outputs = s.outputs ++ [.response { st := 0x00, r := 0 }] ∧ Memory.wf t = true ∧
        { t with dist := s.dist, outputs := s.outputs } = s) ∧
    (s.built = false → exec .bmFill s = .next (takeFault .notBuilt s))

/-- R206 (derived there): after a build and a fill the distance under pair `p`'s key holds the distances of its two
codewords: the source's round trip (V-S5). -/
def Obligations.BuildThenFillRoundTrip : Prop :=
  ∀ s : State, s.fault = false → Memory.wf s = true →
    ∃ t, runCommands [.bmBuild, .bmFill] s = .next t ∧
      ∀ p, p < 2 ^ (s.params.order - 1) →
        laneLow (readElem t.dist (readElem t.keys p).toNat) = readElem s.sym (readElem s.tbl (2 * p)).toNat ∧
        laneHigh (readElem t.dist (readElem t.keys p).toNat) = readElem s.sym (readElem s.tbl (2 * p + 1)).toNat

/-! ## The whole machine -/

/-- R41: no command but `BM.BUILD` changes `KEYS`, `OUTS`, `OUTLEN` (or `BUILT`); `BM.TBLWR` changes `TBL` only (and
answers, or faults). -/
def Obligations.TableStableBetweenBuilds : Prop :=
  (∀ (i : Instr) (s t : State), i ≠ .bmBuild → exec i s = .next t →
    t.keys = s.keys ∧ t.outs = s.outs ∧ t.outlen = s.outlen ∧ t.built = s.built) ∧
  ∀ (e : Nat) (c : BitVec 16) (s t : State), exec (.bmTblwr e c) s = .next t →
    { t with tbl := s.tbl, outputs := s.outputs, fault := s.fault, fcode := s.fcode } = s

/-- R23, the column "written by": a command not listed for a piece of state leaves it unchanged; `FAULT` and `FCODE`
change only in a command that faults. -/
def Obligations.OnlyListedCommandsWrite : Prop :=
  ∀ (i : Instr) (s t : State), exec i s = .next t →
    (writesMetrics i = false → t.pm0 = s.pm0 ∧ t.pm1 = s.pm1) ∧
    (writesSelect i = false → t.sel = s.sel) ∧
    (writesHistory i = false → t.hist = s.hist) ∧
    (writesIndex i = false → t.idx = s.idx) ∧
    (writesLength i = false → t.len = s.len) ∧
    (writesCounter s.params i = false → t.rcnt = s.rcnt) ∧
    (writesTable i = false → t.tbl = s.tbl) ∧
    (writesKeys i = false → t.keys = s.keys ∧ t.outs = s.outs ∧ t.outlen = s.outlen ∧ t.built = s.built) ∧
    (writesDistances i = false → t.dist = s.dist) ∧
    (writesSymbols i = false → t.sym = s.sym) ∧
    (t.fault = s.fault ∧ t.fcode = s.fcode ∨ s.fault = false ∧ t.fault = true) ∧
    t.params = s.params ∧ t.input = s.input ∧ t.resets = s.resets

/-- R77 ("No read has a side effect"): a reading command changes nothing but the record of answers and, if it faults,
`FAULT` and `FCODE`; and issued twice it gives the same answer. -/
def Obligations.ReadsHaveNoSideEffect : Prop :=
  ∀ (i : Instr) (s t : State), onlyReads i = true → exec i s = .next t →
    { t with outputs := s.outputs, fault := s.fault, fcode := s.fcode } = s ∧
    ∃ x, t.outputs = s.outputs ++ [x] ∧ ∃ u, exec i t = .next u ∧ u.outputs = t.outputs ++ [x]

/-- R33, R35 to R38, R43: every step keeps the invariant of the block, from every state that has it. -/
def Obligations.StepKeepsInvariant : Prop :=
  ∀ s t : State, Inv s → step s = .next t → Inv t

/-- R50: the state after hard reset of every instance, and so `State.reset`, has the invariant. -/
def Obligations.HardResetMeetsInvariant : Prop :=
  (∀ (p : Params) (n : Nat), Inv (State.afterHardReset p n)) ∧ Inv State.reset

/-- R50: the scalars and `PM` after hard reset, of every instance. The contents of the other arrays are unspecified and
nothing is said of them. -/
def Obligations.ResetValues : Prop :=
  ∀ (p : Params) (n : Nat),
    (State.afterHardReset p n).params = p ∧
    (∀ w i, readMetric (State.afterHardReset p n) w i = 0) ∧
    (State.afterHardReset p n).sel = false ∧ (State.afterHardReset p n).idx = 0 ∧
    (State.afterHardReset p n).len = 0 ∧ (State.afterHardReset p n).rcnt = 0 ∧
    (State.afterHardReset p n).outlen = 0 ∧ (State.afterHardReset p n).built = false ∧
    (State.afterHardReset p n).fault = false ∧ (State.afterHardReset p n).fcode = 0 ∧
    (State.afterHardReset p n).out = []

/-- The step lemma behind R179 (derived there, from R166, R171, R177), for a step on a word: from every state with the
invariant, the bits handed to the sink and the valid slices together, `|OUT| + LEN`, grow by 1 exactly when the word is
a `DH.PROCSKIP` or `DH.PROC` that completes, and stay for every other command that completes, tracebacks and flushes
too; only `DH.RESET`, of all commands, drops slices. A step on a word that ends faulted changes neither (R236, R244).
Nor does one with nothing presented (R251), a step that is the model's choice (log 3). A step on `RST` is not spoken of
here: it empties both (`HardResetClearsBlock`). -/
def Obligations.StepConservesBits : Prop :=
  ∀ s t : State, Inv s → step s = .next t →
    (∀ (w : CommandWord) (rest : List Input) (i : Instr),
      s.input = .cmd w :: rest → decode w = .command i → t.fault = false →
      (i ≠ .dhReset →
        t.out.length + t.len.toNat = s.out.length + s.len.toNat + (if commits i = true then 1 else 0)) ∧
      (i = .dhReset → t.out = s.out ∧ t.len = 0)) ∧
    ((t.fault = true ∨ s.input = []) → t.out = s.out ∧ t.len = s.len)
end

