-- ==== Sys2Proof/Laws/State.lean ====
section
/-! SUPPORT. One lemma per field per named update of the state, so that no proof unfolds a record update. -/

namespace Sys2Proof.Machine

/-! ### respond -/

@[simp] theorem respond_params (r : BitVec 32) (s : State) : (respond r s).params = s.params := rfl
@[simp] theorem respond_pm0 (r : BitVec 32) (s : State) : (respond r s).pm0 = s.pm0 := rfl
@[simp] theorem respond_pm1 (r : BitVec 32) (s : State) : (respond r s).pm1 = s.pm1 := rfl
@[simp] theorem respond_sel (r : BitVec 32) (s : State) : (respond r s).sel = s.sel := rfl
@[simp] theorem respond_hist (r : BitVec 32) (s : State) : (respond r s).hist = s.hist := rfl
@[simp] theorem respond_idx (r : BitVec 32) (s : State) : (respond r s).idx = s.idx := rfl
@[simp] theorem respond_len (r : BitVec 32) (s : State) : (respond r s).len = s.len := rfl
@[simp] theorem respond_rcnt (r : BitVec 32) (s : State) : (respond r s).rcnt = s.rcnt := rfl
@[simp] theorem respond_tbl (r : BitVec 32) (s : State) : (respond r s).tbl = s.tbl := rfl
@[simp] theorem respond_keys (r : BitVec 32) (s : State) : (respond r s).keys = s.keys := rfl
@[simp] theorem respond_outs (r : BitVec 32) (s : State) : (respond r s).outs = s.outs := rfl
@[simp] theorem respond_outlen (r : BitVec 32) (s : State) : (respond r s).outlen = s.outlen := rfl
@[simp] theorem respond_dist (r : BitVec 32) (s : State) : (respond r s).dist = s.dist := rfl
@[simp] theorem respond_sym (r : BitVec 32) (s : State) : (respond r s).sym = s.sym := rfl
@[simp] theorem respond_built (r : BitVec 32) (s : State) : (respond r s).built = s.built := rfl
@[simp] theorem respond_fault (r : BitVec 32) (s : State) : (respond r s).fault = s.fault := rfl
@[simp] theorem respond_fcode (r : BitVec 32) (s : State) : (respond r s).fcode = s.fcode := rfl
@[simp] theorem respond_input (r : BitVec 32) (s : State) : (respond r s).input = s.input := rfl
@[simp] theorem respond_outputs (r : BitVec 32) (s : State) : (respond r s).outputs = s.outputs ++ [.response (okResponse r)] := rfl
@[simp] theorem respond_resets (r : BitVec 32) (s : State) : (respond r s).resets = s.resets := rfl

/-! ### sendBatch -/

@[simp] theorem sendBatch_params (bits : List Bool) (s : State) : (sendBatch bits s).params = s.params := rfl
@[simp] theorem sendBatch_pm0 (bits : List Bool) (s : State) : (sendBatch bits s).pm0 = s.pm0 := rfl
@[simp] theorem sendBatch_pm1 (bits : List Bool) (s : State) : (sendBatch bits s).pm1 = s.pm1 := rfl
@[simp] theorem sendBatch_sel (bits : List Bool) (s : State) : (sendBatch bits s).sel = s.sel := rfl
@[simp] theorem sendBatch_hist (bits : List Bool) (s : State) : (sendBatch bits s).hist = s.hist := rfl
@[simp] theorem sendBatch_idx (bits : List Bool) (s : State) : (sendBatch bits s).idx = s.idx := rfl
@[simp] theorem sendBatch_len (bits : List Bool) (s : State) : (sendBatch bits s).len = s.len := rfl
@[simp] theorem sendBatch_rcnt (bits : List Bool) (s : State) : (sendBatch bits s).rcnt = s.rcnt := rfl
@[simp] theorem sendBatch_tbl (bits : List Bool) (s : State) : (sendBatch bits s).tbl = s.tbl := rfl
@[simp] theorem sendBatch_keys (bits : List Bool) (s : State) : (sendBatch bits s).keys = s.keys := rfl
@[simp] theorem sendBatch_outs (bits : List Bool) (s : State) : (sendBatch bits s).outs = s.outs := rfl
@[simp] theorem sendBatch_outlen (bits : List Bool) (s : State) : (sendBatch bits s).outlen = s.outlen := rfl
@[simp] theorem sendBatch_dist (bits : List Bool) (s : State) : (sendBatch bits s).dist = s.dist := rfl
@[simp] theorem sendBatch_sym (bits : List Bool) (s : State) : (sendBatch bits s).sym = s.sym := rfl
@[simp] theorem sendBatch_built (bits : List Bool) (s : State) : (sendBatch bits s).built = s.built := rfl
@[simp] theorem sendBatch_fault (bits : List Bool) (s : State) : (sendBatch bits s).fault = s.fault := rfl
@[simp] theorem sendBatch_fcode (bits : List Bool) (s : State) : (sendBatch bits s).fcode = s.fcode := rfl
@[simp] theorem sendBatch_input (bits : List Bool) (s : State) : (sendBatch bits s).input = s.input := rfl
@[simp] theorem sendBatch_outputs (bits : List Bool) (s : State) : (sendBatch bits s).outputs = s.outputs ++ [.batch bits] := rfl
@[simp] theorem sendBatch_resets (bits : List Bool) (s : State) : (sendBatch bits s).resets = s.resets := rfl

/-! ### takeFault -/

@[simp] theorem takeFault_params (c : Cause) (s : State) : (takeFault c s).params = s.params := rfl
@[simp] theorem takeFault_pm0 (c : Cause) (s : State) : (takeFault c s).pm0 = s.pm0 := rfl
@[simp] theorem takeFault_pm1 (c : Cause) (s : State) : (takeFault c s).pm1 = s.pm1 := rfl
@[simp] theorem takeFault_sel (c : Cause) (s : State) : (takeFault c s).sel = s.sel := rfl
@[simp] theorem takeFault_hist (c : Cause) (s : State) : (takeFault c s).hist = s.hist := rfl
@[simp] theorem takeFault_idx (c : Cause) (s : State) : (takeFault c s).idx = s.idx := rfl
@[simp] theorem takeFault_len (c : Cause) (s : State) : (takeFault c s).len = s.len := rfl
@[simp] theorem takeFault_rcnt (c : Cause) (s : State) : (takeFault c s).rcnt = s.rcnt := rfl
@[simp] theorem takeFault_tbl (c : Cause) (s : State) : (takeFault c s).tbl = s.tbl := rfl
@[simp] theorem takeFault_keys (c : Cause) (s : State) : (takeFault c s).keys = s.keys := rfl
@[simp] theorem takeFault_outs (c : Cause) (s : State) : (takeFault c s).outs = s.outs := rfl
@[simp] theorem takeFault_outlen (c : Cause) (s : State) : (takeFault c s).outlen = s.outlen := rfl
@[simp] theorem takeFault_dist (c : Cause) (s : State) : (takeFault c s).dist = s.dist := rfl
@[simp] theorem takeFault_sym (c : Cause) (s : State) : (takeFault c s).sym = s.sym := rfl
@[simp] theorem takeFault_built (c : Cause) (s : State) : (takeFault c s).built = s.built := rfl
@[simp] theorem takeFault_fault (c : Cause) (s : State) : (takeFault c s).fault = true := rfl
@[simp] theorem takeFault_fcode (c : Cause) (s : State) : (takeFault c s).fcode = c.code := rfl
@[simp] theorem takeFault_input (c : Cause) (s : State) : (takeFault c s).input = s.input := rfl
@[simp] theorem takeFault_outputs (c : Cause) (s : State) : (takeFault c s).outputs = s.outputs ++ [.response (faultResponse c.code)] := rfl
@[simp] theorem takeFault_resets (c : Cause) (s : State) : (takeFault c s).resets = s.resets := rfl

/-! ### refuseFaulted -/

@[simp] theorem refuseFaulted_params (s : State) : (refuseFaulted s).params = s.params := rfl
@[simp] theorem refuseFaulted_pm0 (s : State) : (refuseFaulted s).pm0 = s.pm0 := rfl
@[simp] theorem refuseFaulted_pm1 (s : State) : (refuseFaulted s).pm1 = s.pm1 := rfl
@[simp] theorem refuseFaulted_sel (s : State) : (refuseFaulted s).sel = s.sel := rfl
@[simp] theorem refuseFaulted_hist (s : State) : (refuseFaulted s).hist = s.hist := rfl
@[simp] theorem refuseFaulted_idx (s : State) : (refuseFaulted s).idx = s.idx := rfl
@[simp] theorem refuseFaulted_len (s : State) : (refuseFaulted s).len = s.len := rfl
@[simp] theorem refuseFaulted_rcnt (s : State) : (refuseFaulted s).rcnt = s.rcnt := rfl
@[simp] theorem refuseFaulted_tbl (s : State) : (refuseFaulted s).tbl = s.tbl := rfl
@[simp] theorem refuseFaulted_keys (s : State) : (refuseFaulted s).keys = s.keys := rfl
@[simp] theorem refuseFaulted_outs (s : State) : (refuseFaulted s).outs = s.outs := rfl
@[simp] theorem refuseFaulted_outlen (s : State) : (refuseFaulted s).outlen = s.outlen := rfl
@[simp] theorem refuseFaulted_dist (s : State) : (refuseFaulted s).dist = s.dist := rfl
@[simp] theorem refuseFaulted_sym (s : State) : (refuseFaulted s).sym = s.sym := rfl
@[simp] theorem refuseFaulted_built (s : State) : (refuseFaulted s).built = s.built := rfl
@[simp] theorem refuseFaulted_fault (s : State) : (refuseFaulted s).fault = s.fault := rfl
@[simp] theorem refuseFaulted_fcode (s : State) : (refuseFaulted s).fcode = s.fcode := rfl
@[simp] theorem refuseFaulted_input (s : State) : (refuseFaulted s).input = s.input := rfl
@[simp] theorem refuseFaulted_outputs (s : State) : (refuseFaulted s).outputs = s.outputs ++ [.response (faultResponse s.fcode)] := rfl
@[simp] theorem refuseFaulted_resets (s : State) : (refuseFaulted s).resets = s.resets := rfl

/-! ### setPmBuffer -/

@[simp] theorem setPmBuffer_params (b : Bool) (l : List Metric) (s : State) : (setPmBuffer b l s).params = s.params := by cases b <;> rfl
@[simp] theorem setPmBuffer_pm0 (b : Bool) (l : List Metric) (s : State) : (setPmBuffer b l s).pm0 = if b then s.pm0 else l := by cases b <;> rfl
@[simp] theorem setPmBuffer_pm1 (b : Bool) (l : List Metric) (s : State) : (setPmBuffer b l s).pm1 = if b then l else s.pm1 := by cases b <;> rfl
@[simp] theorem setPmBuffer_sel (b : Bool) (l : List Metric) (s : State) : (setPmBuffer b l s).sel = s.sel := by cases b <;> rfl
@[simp] theorem setPmBuffer_hist (b : Bool) (l : List Metric) (s : State) : (setPmBuffer b l s).hist = s.hist := by cases b <;> rfl
@[simp] theorem setPmBuffer_idx (b : Bool) (l : List Metric) (s : State) : (setPmBuffer b l s).idx = s.idx := by cases b <;> rfl
@[simp] theorem setPmBuffer_len (b : Bool) (l : List Metric) (s : State) : (setPmBuffer b l s).len = s.len := by cases b <;> rfl
@[simp] theorem setPmBuffer_rcnt (b : Bool) (l : List Metric) (s : State) : (setPmBuffer b l s).rcnt = s.rcnt := by cases b <;> rfl
@[simp] theorem setPmBuffer_tbl (b : Bool) (l : List Metric) (s : State) : (setPmBuffer b l s).tbl = s.tbl := by cases b <;> rfl
@[simp] theorem setPmBuffer_keys (b : Bool) (l : List Metric) (s : State) : (setPmBuffer b l s).keys = s.keys := by cases b <;> rfl
@[simp] theorem setPmBuffer_outs (b : Bool) (l : List Metric) (s : State) : (setPmBuffer b l s).outs = s.outs := by cases b <;> rfl
@[simp] theorem setPmBuffer_outlen (b : Bool) (l : List Metric) (s : State) : (setPmBuffer b l s).outlen = s.outlen := by cases b <;> rfl
@[simp] theorem setPmBuffer_dist (b : Bool) (l : List Metric) (s : State) : (setPmBuffer b l s).dist = s.dist := by cases b <;> rfl
@[simp] theorem setPmBuffer_sym (b : Bool) (l : List Metric) (s : State) : (setPmBuffer b l s).sym = s.sym := by cases b <;> rfl
@[simp] theorem setPmBuffer_built (b : Bool) (l : List Metric) (s : State) : (setPmBuffer b l s).built = s.built := by cases b <;> rfl
@[simp] theorem setPmBuffer_fault (b : Bool) (l : List Metric) (s : State) : (setPmBuffer b l s).fault = s.fault := by cases b <;> rfl
@[simp] theorem setPmBuffer_fcode (b : Bool) (l : List Metric) (s : State) : (setPmBuffer b l s).fcode = s.fcode := by cases b <;> rfl
@[simp] theorem setPmBuffer_input (b : Bool) (l : List Metric) (s : State) : (setPmBuffer b l s).input = s.input := by cases b <;> rfl
@[simp] theorem setPmBuffer_outputs (b : Bool) (l : List Metric) (s : State) : (setPmBuffer b l s).outputs = s.outputs := by cases b <;> rfl
@[simp] theorem setPmBuffer_resets (b : Bool) (l : List Metric) (s : State) : (setPmBuffer b l s).resets = s.resets := by cases b <;> rfl

/-! ### setBuf -/

@[simp] theorem setBuf_params (w : Bool) (l : List Metric) (s : State) : (setBuf w l s).params = s.params := setPmBuffer_params _ _ _
@[simp] theorem setBuf_pm0 (w : Bool) (l : List Metric) (s : State) : (setBuf w l s).pm0 = if s.sel ^^ w then s.pm0 else l := setPmBuffer_pm0 _ _ _
@[simp] theorem setBuf_pm1 (w : Bool) (l : List Metric) (s : State) : (setBuf w l s).pm1 = if s.sel ^^ w then l else s.pm1 := setPmBuffer_pm1 _ _ _
@[simp] theorem setBuf_sel (w : Bool) (l : List Metric) (s : State) : (setBuf w l s).sel = s.sel := setPmBuffer_sel _ _ _
@[simp] theorem setBuf_hist (w : Bool) (l : List Metric) (s : State) : (setBuf w l s).hist = s.hist := setPmBuffer_hist _ _ _
@[simp] theorem setBuf_idx (w : Bool) (l : List Metric) (s : State) : (setBuf w l s).idx = s.idx := setPmBuffer_idx _ _ _
@[simp] theorem setBuf_len (w : Bool) (l : List Metric) (s : State) : (setBuf w l s).len = s.len := setPmBuffer_len _ _ _
@[simp] theorem setBuf_rcnt (w : Bool) (l : List Metric) (s : State) : (setBuf w l s).rcnt = s.rcnt := setPmBuffer_rcnt _ _ _
@[simp] theorem setBuf_tbl (w : Bool) (l : List Metric) (s : State) : (setBuf w l s).tbl = s.tbl := setPmBuffer_tbl _ _ _
@[simp] theorem setBuf_keys (w : Bool) (l : List Metric) (s : State) : (setBuf w l s).keys = s.keys := setPmBuffer_keys _ _ _
@[simp] theorem setBuf_outs (w : Bool) (l : List Metric) (s : State) : (setBuf w l s).outs = s.outs := setPmBuffer_outs _ _ _
@[simp] theorem setBuf_outlen (w : Bool) (l : List Metric) (s : State) : (setBuf w l s).outlen = s.outlen := setPmBuffer_outlen _ _ _
@[simp] theorem setBuf_dist (w : Bool) (l : List Metric) (s : State) : (setBuf w l s).dist = s.dist := setPmBuffer_dist _ _ _
@[simp] theorem setBuf_sym (w : Bool) (l : List Metric) (s : State) : (setBuf w l s).sym = s.sym := setPmBuffer_sym _ _ _
@[simp] theorem setBuf_built (w : Bool) (l : List Metric) (s : State) : (setBuf w l s).built = s.built := setPmBuffer_built _ _ _
@[simp] theorem setBuf_fault (w : Bool) (l : List Metric) (s : State) : (setBuf w l s).fault = s.fault := setPmBuffer_fault _ _ _
@[simp] theorem setBuf_fcode (w : Bool) (l : List Metric) (s : State) : (setBuf w l s).fcode = s.fcode := setPmBuffer_fcode _ _ _
@[simp] theorem setBuf_input (w : Bool) (l : List Metric) (s : State) : (setBuf w l s).input = s.input := setPmBuffer_input _ _ _
@[simp] theorem setBuf_outputs (w : Bool) (l : List Metric) (s : State) : (setBuf w l s).outputs = s.outputs := setPmBuffer_outputs _ _ _
@[simp] theorem setBuf_resets (w : Bool) (l : List Metric) (s : State) : (setBuf w l s).resets = s.resets := setPmBuffer_resets _ _ _

/-! ### writeMetric -/

@[simp] theorem writeMetric_params (w : Bool) (i : Nat) (m : Metric) (s : State) : (writeMetric w i m s).params = s.params := setBuf_params _ _ _
@[simp] theorem writeMetric_sel (w : Bool) (i : Nat) (m : Metric) (s : State) : (writeMetric w i m s).sel = s.sel := setBuf_sel _ _ _
@[simp] theorem writeMetric_hist (w : Bool) (i : Nat) (m : Metric) (s : State) : (writeMetric w i m s).hist = s.hist := setBuf_hist _ _ _
@[simp] theorem writeMetric_idx (w : Bool) (i : Nat) (m : Metric) (s : State) : (writeMetric w i m s).idx = s.idx := setBuf_idx _ _ _
@[simp] theorem writeMetric_len (w : Bool) (i : Nat) (m : Metric) (s : State) : (writeMetric w i m s).len = s.len := setBuf_len _ _ _
@[simp] theorem writeMetric_rcnt (w : Bool) (i : Nat) (m : Metric) (s : State) : (writeMetric w i m s).rcnt = s.rcnt := setBuf_rcnt _ _ _
@[simp] theorem writeMetric_tbl (w : Bool) (i : Nat) (m : Metric) (s : State) : (writeMetric w i m s).tbl = s.tbl := setBuf_tbl _ _ _
@[simp] theorem writeMetric_keys (w : Bool) (i : Nat) (m : Metric) (s : State) : (writeMetric w i m s).keys = s.keys := setBuf_keys _ _ _
@[simp] theorem writeMetric_outs (w : Bool) (i : Nat) (m : Metric) (s : State) : (writeMetric w i m s).outs = s.outs := setBuf_outs _ _ _
@[simp] theorem writeMetric_outlen (w : Bool) (i : Nat) (m : Metric) (s : State) : (writeMetric w i m s).outlen = s.outlen := setBuf_outlen _ _ _
@[simp] theorem writeMetric_dist (w : Bool) (i : Nat) (m : Metric) (s : State) : (writeMetric w i m s).dist = s.dist := setBuf_dist _ _ _
@[simp] theorem writeMetric_sym (w : Bool) (i : Nat) (m : Metric) (s : State) : (writeMetric w i m s).sym = s.sym := setBuf_sym _ _ _
@[simp] theorem writeMetric_built (w : Bool) (i : Nat) (m : Metric) (s : State) : (writeMetric w i m s).built = s.built := setBuf_built _ _ _
@[simp] theorem writeMetric_fault (w : Bool) (i : Nat) (m : Metric) (s : State) : (writeMetric w i m s).fault = s.fault := setBuf_fault _ _ _
@[simp] theorem writeMetric_fcode (w : Bool) (i : Nat) (m : Metric) (s : State) : (writeMetric w i m s).fcode = s.fcode := setBuf_fcode _ _ _
@[simp] theorem writeMetric_input (w : Bool) (i : Nat) (m : Metric) (s : State) : (writeMetric w i m s).input = s.input := setBuf_input _ _ _
@[simp] theorem writeMetric_outputs (w : Bool) (i : Nat) (m : Metric) (s : State) : (writeMetric w i m s).outputs = s.outputs := setBuf_outputs _ _ _
@[simp] theorem writeMetric_resets (w : Bool) (i : Nat) (m : Metric) (s : State) : (writeMetric w i m s).resets = s.resets := setBuf_resets _ _ _

/-! ### renormalize -/

@[simp] theorem renormalize_params (w : Bool) (ms : Nat) (s : State) : (renormalize w ms s).params = s.params := setBuf_params _ _ _
@[simp] theorem renormalize_sel (w : Bool) (ms : Nat) (s : State) : (renormalize w ms s).sel = s.sel := setBuf_sel _ _ _
@[simp] theorem renormalize_hist (w : Bool) (ms : Nat) (s : State) : (renormalize w ms s).hist = s.hist := setBuf_hist _ _ _
@[simp] theorem renormalize_idx (w : Bool) (ms : Nat) (s : State) : (renormalize w ms s).idx = s.idx := setBuf_idx _ _ _
@[simp] theorem renormalize_len (w : Bool) (ms : Nat) (s : State) : (renormalize w ms s).len = s.len := setBuf_len _ _ _
@[simp] theorem renormalize_rcnt (w : Bool) (ms : Nat) (s : State) : (renormalize w ms s).rcnt = s.rcnt := setBuf_rcnt _ _ _
@[simp] theorem renormalize_tbl (w : Bool) (ms : Nat) (s : State) : (renormalize w ms s).tbl = s.tbl := setBuf_tbl _ _ _
@[simp] theorem renormalize_keys (w : Bool) (ms : Nat) (s : State) : (renormalize w ms s).keys = s.keys := setBuf_keys _ _ _
@[simp] theorem renormalize_outs (w : Bool) (ms : Nat) (s : State) : (renormalize w ms s).outs = s.outs := setBuf_outs _ _ _
@[simp] theorem renormalize_outlen (w : Bool) (ms : Nat) (s : State) : (renormalize w ms s).outlen = s.outlen := setBuf_outlen _ _ _
@[simp] theorem renormalize_dist (w : Bool) (ms : Nat) (s : State) : (renormalize w ms s).dist = s.dist := setBuf_dist _ _ _
@[simp] theorem renormalize_sym (w : Bool) (ms : Nat) (s : State) : (renormalize w ms s).sym = s.sym := setBuf_sym _ _ _
@[simp] theorem renormalize_built (w : Bool) (ms : Nat) (s : State) : (renormalize w ms s).built = s.built := setBuf_built _ _ _
@[simp] theorem renormalize_fault (w : Bool) (ms : Nat) (s : State) : (renormalize w ms s).fault = s.fault := setBuf_fault _ _ _
@[simp] theorem renormalize_fcode (w : Bool) (ms : Nat) (s : State) : (renormalize w ms s).fcode = s.fcode := setBuf_fcode _ _ _
@[simp] theorem renormalize_input (w : Bool) (ms : Nat) (s : State) : (renormalize w ms s).input = s.input := setBuf_input _ _ _
@[simp] theorem renormalize_outputs (w : Bool) (ms : Nat) (s : State) : (renormalize w ms s).outputs = s.outputs := setBuf_outputs _ _ _
@[simp] theorem renormalize_resets (w : Bool) (ms : Nat) (s : State) : (renormalize w ms s).resets = s.resets := setBuf_resets _ _ _

/-! ### writeEntry -/

@[simp] theorem writeEntry_params (p i : Nat) (v : Entry) (s : State) : (writeEntry p i v s).params = s.params := rfl
@[simp] theorem writeEntry_pm0 (p i : Nat) (v : Entry) (s : State) : (writeEntry p i v s).pm0 = s.pm0 := rfl
@[simp] theorem writeEntry_pm1 (p i : Nat) (v : Entry) (s : State) : (writeEntry p i v s).pm1 = s.pm1 := rfl
@[simp] theorem writeEntry_sel (p i : Nat) (v : Entry) (s : State) : (writeEntry p i v s).sel = s.sel := rfl
@[simp] theorem writeEntry_hist (p i : Nat) (v : Entry) (s : State) : (writeEntry p i v s).hist = writeElem s.hist p (writeElem (slice s p) i v) := rfl
@[simp] theorem writeEntry_idx (p i : Nat) (v : Entry) (s : State) : (writeEntry p i v s).idx = s.idx := rfl
@[simp] theorem writeEntry_len (p i : Nat) (v : Entry) (s : State) : (writeEntry p i v s).len = s.len := rfl
@[simp] theorem writeEntry_rcnt (p i : Nat) (v : Entry) (s : State) : (writeEntry p i v s).rcnt = s.rcnt := rfl
@[simp] theorem writeEntry_tbl (p i : Nat) (v : Entry) (s : State) : (writeEntry p i v s).tbl = s.tbl := rfl
@[simp] theorem writeEntry_keys (p i : Nat) (v : Entry) (s : State) : (writeEntry p i v s).keys = s.keys := rfl
@[simp] theorem writeEntry_outs (p i : Nat) (v : Entry) (s : State) : (writeEntry p i v s).outs = s.outs := rfl
@[simp] theorem writeEntry_outlen (p i : Nat) (v : Entry) (s : State) : (writeEntry p i v s).outlen = s.outlen := rfl
@[simp] theorem writeEntry_dist (p i : Nat) (v : Entry) (s : State) : (writeEntry p i v s).dist = s.dist := rfl
@[simp] theorem writeEntry_sym (p i : Nat) (v : Entry) (s : State) : (writeEntry p i v s).sym = s.sym := rfl
@[simp] theorem writeEntry_built (p i : Nat) (v : Entry) (s : State) : (writeEntry p i v s).built = s.built := rfl
@[simp] theorem writeEntry_fault (p i : Nat) (v : Entry) (s : State) : (writeEntry p i v s).fault = s.fault := rfl
@[simp] theorem writeEntry_fcode (p i : Nat) (v : Entry) (s : State) : (writeEntry p i v s).fcode = s.fcode := rfl
@[simp] theorem writeEntry_input (p i : Nat) (v : Entry) (s : State) : (writeEntry p i v s).input = s.input := rfl
@[simp] theorem writeEntry_outputs (p i : Nat) (v : Entry) (s : State) : (writeEntry p i v s).outputs = s.outputs := rfl
@[simp] theorem writeEntry_resets (p i : Nat) (v : Entry) (s : State) : (writeEntry p i v s).resets = s.resets := rfl

/-! ### commitSlice -/

@[simp] theorem commitSlice_params (s : State) : (commitSlice s).params = s.params := rfl
@[simp] theorem commitSlice_pm0 (s : State) : (commitSlice s).pm0 = s.pm0 := rfl
@[simp] theorem commitSlice_pm1 (s : State) : (commitSlice s).pm1 = s.pm1 := rfl
@[simp] theorem commitSlice_sel (s : State) : (commitSlice s).sel = s.sel := rfl
@[simp] theorem commitSlice_hist (s : State) : (commitSlice s).hist = s.hist := rfl
@[simp] theorem commitSlice_idx (s : State) : (commitSlice s).idx = if s.idx.toNat + 1 = s.params.cap then 0 else s.idx + 1 := rfl
@[simp] theorem commitSlice_len (s : State) : (commitSlice s).len = s.len + 1 := rfl
@[simp] theorem commitSlice_rcnt (s : State) : (commitSlice s).rcnt = s.rcnt + 1 := rfl
@[simp] theorem commitSlice_tbl (s : State) : (commitSlice s).tbl = s.tbl := rfl
@[simp] theorem commitSlice_keys (s : State) : (commitSlice s).keys = s.keys := rfl
@[simp] theorem commitSlice_outs (s : State) : (commitSlice s).outs = s.outs := rfl
@[simp] theorem commitSlice_outlen (s : State) : (commitSlice s).outlen = s.outlen := rfl
@[simp] theorem commitSlice_dist (s : State) : (commitSlice s).dist = s.dist := rfl
@[simp] theorem commitSlice_sym (s : State) : (commitSlice s).sym = s.sym := rfl
@[simp] theorem commitSlice_built (s : State) : (commitSlice s).built = s.built := rfl
@[simp] theorem commitSlice_fault (s : State) : (commitSlice s).fault = s.fault := rfl
@[simp] theorem commitSlice_fcode (s : State) : (commitSlice s).fcode = s.fcode := rfl
@[simp] theorem commitSlice_input (s : State) : (commitSlice s).input = s.input := rfl
@[simp] theorem commitSlice_outputs (s : State) : (commitSlice s).outputs = s.outputs := rfl
@[simp] theorem commitSlice_resets (s : State) : (commitSlice s).resets = s.resets := rfl

/-! ### buildTable -/

@[simp] theorem buildTable_params (s : State) : (buildTable s).params = s.params := rfl
@[simp] theorem buildTable_pm0 (s : State) : (buildTable s).pm0 = s.pm0 := rfl
@[simp] theorem buildTable_pm1 (s : State) : (buildTable s).pm1 = s.pm1 := rfl
@[simp] theorem buildTable_sel (s : State) : (buildTable s).sel = s.sel := rfl
@[simp] theorem buildTable_hist (s : State) : (buildTable s).hist = s.hist := rfl
@[simp] theorem buildTable_idx (s : State) : (buildTable s).idx = s.idx := rfl
@[simp] theorem buildTable_len (s : State) : (buildTable s).len = s.len := rfl
@[simp] theorem buildTable_rcnt (s : State) : (buildTable s).rcnt = s.rcnt := rfl
@[simp] theorem buildTable_tbl (s : State) : (buildTable s).tbl = s.tbl := rfl
@[simp] theorem buildTable_keys (s : State) : (buildTable s).keys = (buildLoop s).keys := rfl
@[simp] theorem buildTable_outs (s : State) : (buildTable s).outs = (buildLoop s).outs := rfl
@[simp] theorem buildTable_outlen (s : State) : (buildTable s).outlen = BitVec.ofNat 16 (buildLoop s).cnt := rfl
@[simp] theorem buildTable_dist (s : State) : (buildTable s).dist = List.replicate s.params.outCap 0 := rfl
@[simp] theorem buildTable_sym (s : State) : (buildTable s).sym = s.sym := rfl
@[simp] theorem buildTable_built (s : State) : (buildTable s).built = true := rfl
@[simp] theorem buildTable_fault (s : State) : (buildTable s).fault = s.fault := rfl
@[simp] theorem buildTable_fcode (s : State) : (buildTable s).fcode = s.fcode := rfl
@[simp] theorem buildTable_input (s : State) : (buildTable s).input = s.input := rfl
@[simp] theorem buildTable_outputs (s : State) : (buildTable s).outputs = s.outputs := rfl
@[simp] theorem buildTable_resets (s : State) : (buildTable s).resets = s.resets := rfl

/-! ### fillDistances -/

@[simp] theorem fillDistances_params (s : State) : (fillDistances s).params = s.params := rfl
@[simp] theorem fillDistances_pm0 (s : State) : (fillDistances s).pm0 = s.pm0 := rfl
@[simp] theorem fillDistances_pm1 (s : State) : (fillDistances s).pm1 = s.pm1 := rfl
@[simp] theorem fillDistances_sel (s : State) : (fillDistances s).sel = s.sel := rfl
@[simp] theorem fillDistances_hist (s : State) : (fillDistances s).hist = s.hist := rfl
@[simp] theorem fillDistances_idx (s : State) : (fillDistances s).idx = s.idx := rfl
@[simp] theorem fillDistances_len (s : State) : (fillDistances s).len = s.len := rfl
@[simp] theorem fillDistances_rcnt (s : State) : (fillDistances s).rcnt = s.rcnt := rfl
@[simp] theorem fillDistances_tbl (s : State) : (fillDistances s).tbl = s.tbl := rfl
@[simp] theorem fillDistances_keys (s : State) : (fillDistances s).keys = s.keys := rfl
@[simp] theorem fillDistances_outs (s : State) : (fillDistances s).outs = s.outs := rfl
@[simp] theorem fillDistances_outlen (s : State) : (fillDistances s).outlen = s.outlen := rfl
@[simp] theorem fillDistances_sym (s : State) : (fillDistances s).sym = s.sym := rfl
@[simp] theorem fillDistances_built (s : State) : (fillDistances s).built = s.built := rfl
@[simp] theorem fillDistances_fault (s : State) : (fillDistances s).fault = s.fault := rfl
@[simp] theorem fillDistances_fcode (s : State) : (fillDistances s).fcode = s.fcode := rfl
@[simp] theorem fillDistances_input (s : State) : (fillDistances s).input = s.input := rfl
@[simp] theorem fillDistances_outputs (s : State) : (fillDistances s).outputs = s.outputs := rfl
@[simp] theorem fillDistances_resets (s : State) : (fillDistances s).resets = s.resets := rfl

/-! ### resetMetrics -/

@[simp] theorem resetMetrics_params (s : State) : (resetMetrics s).params = s.params := rfl
@[simp] theorem resetMetrics_pm0 (s : State) : (resetMetrics s).pm0 = List.replicate s.params.numStates 0 := rfl
@[simp] theorem resetMetrics_pm1 (s : State) : (resetMetrics s).pm1 = List.replicate s.params.numStates 0 := rfl
@[simp] theorem resetMetrics_sel (s : State) : (resetMetrics s).sel = false := rfl
@[simp] theorem resetMetrics_hist (s : State) : (resetMetrics s).hist = s.hist := rfl
@[simp] theorem resetMetrics_idx (s : State) : (resetMetrics s).idx = s.idx := rfl
@[simp] theorem resetMetrics_len (s : State) : (resetMetrics s).len = s.len := rfl
@[simp] theorem resetMetrics_rcnt (s : State) : (resetMetrics s).rcnt = s.rcnt := rfl
@[simp] theorem resetMetrics_tbl (s : State) : (resetMetrics s).tbl = s.tbl := rfl
@[simp] theorem resetMetrics_keys (s : State) : (resetMetrics s).keys = s.keys := rfl
@[simp] theorem resetMetrics_outs (s : State) : (resetMetrics s).outs = s.outs := rfl
@[simp] theorem resetMetrics_outlen (s : State) : (resetMetrics s).outlen = s.outlen := rfl
@[simp] theorem resetMetrics_dist (s : State) : (resetMetrics s).dist = s.dist := rfl
@[simp] theorem resetMetrics_sym (s : State) : (resetMetrics s).sym = s.sym := rfl
@[simp] theorem resetMetrics_built (s : State) : (resetMetrics s).built = s.built := rfl
@[simp] theorem resetMetrics_fault (s : State) : (resetMetrics s).fault = s.fault := rfl
@[simp] theorem resetMetrics_fcode (s : State) : (resetMetrics s).fcode = s.fcode := rfl
@[simp] theorem resetMetrics_input (s : State) : (resetMetrics s).input = s.input := rfl
@[simp] theorem resetMetrics_outputs (s : State) : (resetMetrics s).outputs = s.outputs := rfl
@[simp] theorem resetMetrics_resets (s : State) : (resetMetrics s).resets = s.resets := rfl

/-! ### resetHistory -/

@[simp] theorem resetHistory_params (s : State) : (resetHistory s).params = s.params := rfl
@[simp] theorem resetHistory_pm0 (s : State) : (resetHistory s).pm0 = s.pm0 := rfl
@[simp] theorem resetHistory_pm1 (s : State) : (resetHistory s).pm1 = s.pm1 := rfl
@[simp] theorem resetHistory_sel (s : State) : (resetHistory s).sel = s.sel := rfl
@[simp] theorem resetHistory_hist (s : State) : (resetHistory s).hist = s.hist := rfl
@[simp] theorem resetHistory_idx (s : State) : (resetHistory s).idx = 0 := rfl
@[simp] theorem resetHistory_len (s : State) : (resetHistory s).len = 0 := rfl
@[simp] theorem resetHistory_rcnt (s : State) : (resetHistory s).rcnt = if s.params.rstClearsRcnt then 0 else s.rcnt := rfl
@[simp] theorem resetHistory_tbl (s : State) : (resetHistory s).tbl = s.tbl := rfl
@[simp] theorem resetHistory_keys (s : State) : (resetHistory s).keys = s.keys := rfl
@[simp] theorem resetHistory_outs (s : State) : (resetHistory s).outs = s.outs := rfl
@[simp] theorem resetHistory_outlen (s : State) : (resetHistory s).outlen = s.outlen := rfl
@[simp] theorem resetHistory_dist (s : State) : (resetHistory s).dist = s.dist := rfl
@[simp] theorem resetHistory_sym (s : State) : (resetHistory s).sym = s.sym := rfl
@[simp] theorem resetHistory_built (s : State) : (resetHistory s).built = s.built := rfl
@[simp] theorem resetHistory_fault (s : State) : (resetHistory s).fault = s.fault := rfl
@[simp] theorem resetHistory_fcode (s : State) : (resetHistory s).fcode = s.fcode := rfl
@[simp] theorem resetHistory_input (s : State) : (resetHistory s).input = s.input := rfl
@[simp] theorem resetHistory_outputs (s : State) : (resetHistory s).outputs = s.outputs := rfl
@[simp] theorem resetHistory_resets (s : State) : (resetHistory s).resets = s.resets := rfl

/-! ### presentWord -/

@[simp] theorem presentWord_params (w : CommandWord) (s : State) : (presentWord w s).params = s.params := rfl
@[simp] theorem presentWord_pm0 (w : CommandWord) (s : State) : (presentWord w s).pm0 = s.pm0 := rfl
@[simp] theorem presentWord_pm1 (w : CommandWord) (s : State) : (presentWord w s).pm1 = s.pm1 := rfl
@[simp] theorem presentWord_sel (w : CommandWord) (s : State) : (presentWord w s).sel = s.sel := rfl
@[simp] theorem presentWord_hist (w : CommandWord) (s : State) : (presentWord w s).hist = s.hist := rfl
@[simp] theorem presentWord_idx (w : CommandWord) (s : State) : (presentWord w s).idx = s.idx := rfl
@[simp] theorem presentWord_len (w : CommandWord) (s : State) : (presentWord w s).len = s.len := rfl
@[simp] theorem presentWord_rcnt (w : CommandWord) (s : State) : (presentWord w s).rcnt = s.rcnt := rfl
@[simp] theorem presentWord_tbl (w : CommandWord) (s : State) : (presentWord w s).tbl = s.tbl := rfl
@[simp] theorem presentWord_keys (w : CommandWord) (s : State) : (presentWord w s).keys = s.keys := rfl
@[simp] theorem presentWord_outs (w : CommandWord) (s : State) : (presentWord w s).outs = s.outs := rfl
@[simp] theorem presentWord_outlen (w : CommandWord) (s : State) : (presentWord w s).outlen = s.outlen := rfl
@[simp] theorem presentWord_dist (w : CommandWord) (s : State) : (presentWord w s).dist = s.dist := rfl
@[simp] theorem presentWord_sym (w : CommandWord) (s : State) : (presentWord w s).sym = s.sym := rfl
@[simp] theorem presentWord_built (w : CommandWord) (s : State) : (presentWord w s).built = s.built := rfl
@[simp] theorem presentWord_fault (w : CommandWord) (s : State) : (presentWord w s).fault = s.fault := rfl
@[simp] theorem presentWord_fcode (w : CommandWord) (s : State) : (presentWord w s).fcode = s.fcode := rfl
@[simp] theorem presentWord_input (w : CommandWord) (s : State) : (presentWord w s).input = .cmd w :: s.input := rfl
@[simp] theorem presentWord_outputs (w : CommandWord) (s : State) : (presentWord w s).outputs = s.outputs := rfl
@[simp] theorem presentWord_resets (w : CommandWord) (s : State) : (presentWord w s).resets = s.resets := rfl

/-! ### answered -/

@[simp] theorem answered_params (r : BitVec 32) (s : State) : (answered r s).params = s.params := rfl
@[simp] theorem answered_pm0 (r : BitVec 32) (s : State) : (answered r s).pm0 = s.pm0 := rfl
@[simp] theorem answered_pm1 (r : BitVec 32) (s : State) : (answered r s).pm1 = s.pm1 := rfl
@[simp] theorem answered_sel (r : BitVec 32) (s : State) : (answered r s).sel = s.sel := rfl
@[simp] theorem answered_hist (r : BitVec 32) (s : State) : (answered r s).hist = s.hist := rfl
@[simp] theorem answered_idx (r : BitVec 32) (s : State) : (answered r s).idx = s.idx := rfl
@[simp] theorem answered_len (r : BitVec 32) (s : State) : (answered r s).len = s.len := rfl
@[simp] theorem answered_rcnt (r : BitVec 32) (s : State) : (answered r s).rcnt = s.rcnt := rfl
@[simp] theorem answered_tbl (r : BitVec 32) (s : State) : (answered r s).tbl = s.tbl := rfl
@[simp] theorem answered_keys (r : BitVec 32) (s : State) : (answered r s).keys = s.keys := rfl
@[simp] theorem answered_outs (r : BitVec 32) (s : State) : (answered r s).outs = s.outs := rfl
@[simp] theorem answered_outlen (r : BitVec 32) (s : State) : (answered r s).outlen = s.outlen := rfl
@[simp] theorem answered_dist (r : BitVec 32) (s : State) : (answered r s).dist = s.dist := rfl
@[simp] theorem answered_sym (r : BitVec 32) (s : State) : (answered r s).sym = s.sym := rfl
@[simp] theorem answered_built (r : BitVec 32) (s : State) : (answered r s).built = s.built := rfl
@[simp] theorem answered_fault (r : BitVec 32) (s : State) : (answered r s).fault = s.fault := rfl
@[simp] theorem answered_fcode (r : BitVec 32) (s : State) : (answered r s).fcode = s.fcode := rfl
@[simp] theorem answered_input (r : BitVec 32) (s : State) : (answered r s).input = s.input := rfl
@[simp] theorem answered_outputs (r : BitVec 32) (s : State) : (answered r s).outputs = s.outputs ++ [.response { st := 0x00, r := r }] := rfl
@[simp] theorem answered_resets (r : BitVec 32) (s : State) : (answered r s).resets = s.resets := rfl

end Sys2Proof.Machine
end

