-- ==== Sys2Proof/Laws/Memory.lean ====
section
/-! SUPPORT. The laws of the block's arrays: a read after a write, the two path-metric buffers, and that every
operation keeps the canonical form `Memory.wf`. -/

namespace Sys2Proof.Machine

/-! ## One element -/

@[simp] theorem length_writeElem {α : Type} (l : List α) (i : Nat) (v : α) :
    (writeElem l i v).length = l.length := by simp [writeElem]

theorem readElem_writeElem_same {n : Nat} {l : List (BitVec n)} {i : Nat} (h : i < l.length) (v : BitVec n) :
    readElem (writeElem l i v) i = v := by simp [readElem, writeElem, h]

theorem readElem_writeElem_ne {n : Nat} (l : List (BitVec n)) {i j : Nat} (h : i ≠ j) (v : BitVec n) :
    readElem (writeElem l i v) j = readElem l j := by simp [readElem, writeElem, List.getElem?_set_ne h]

@[simp] theorem readElem_replicate {n : Nat} (k i : Nat) : readElem (List.replicate k 0#n) i = 0#n := by
  simp only [readElem, List.getD_eq_getElem?_getD, List.getElem?_replicate]
  split <;> rfl

theorem readElem_of_length_le {n : Nat} {l : List (BitVec n)} {i : Nat} (h : l.length ≤ i) : readElem l i = 0 := by
  simp [readElem, h]

theorem readElem_map_range {n : Nat} (f : Nat → BitVec n) {k i : Nat} (h : i < k) :
    readElem ((List.range k).map f) i = f i := by simp [readElem, h]

/-- The elements of a list all satisfy what all its members satisfy, and so does the 0 read past its end. -/
theorem readElem_of_forall {n : Nat} {P : BitVec n → Prop} {l : List (BitVec n)} (h : ∀ x ∈ l, P x) (h0 : P 0)
    (i : Nat) : P (readElem l i) := by
  by_cases hi : i < l.length
  · have : readElem l i = l[i] := by simp [readElem, hi]
    exact this ▸ h _ (List.getElem_mem hi)
  · exact readElem_of_length_le (Nat.not_lt.mp hi) ▸ h0

/-! ## The path-metric buffers -/

@[simp] theorem buf_respond (r : BitVec 32) (s : State) (w : Bool) : buf (respond r s) w = buf s w := rfl

theorem buf_setBuf_same (w : Bool) (l : List Metric) (s : State) : buf (setBuf w l s) w = l := by
  unfold buf setBuf pmBuffer setPmBuffer
  cases h : (s.sel ^^ w) <;> simp [h]

theorem buf_setBuf_other (w : Bool) (l : List Metric) (s : State) : buf (setBuf w l s) (!w) = buf s (!w) := by
  unfold buf setBuf pmBuffer setPmBuffer
  cases w <;> cases s.sel <;> simp

theorem readMetric_writeMetric_same {s : State} {w : Bool} {i : Nat} (h : i < (buf s w).length) (m : Metric) :
    readMetric (writeMetric w i m s) w i = m := by
  simp only [readMetric, writeMetric, buf_setBuf_same]
  exact readElem_writeElem_same h m

/-- A write of one metric leaves every other metric of both buffers. -/
theorem readMetric_writeMetric_ne {s : State} {w v : Bool} {i j : Nat} (h : (w, i) ≠ (v, j)) (m : Metric) :
    readMetric (writeMetric w i m s) v j = readMetric s v j := by
  by_cases hv : v = w
  · subst hv
    simp only [readMetric, writeMetric, buf_setBuf_same]
    exact readElem_writeElem_ne _ (fun e => h (by rw [e])) m
  · have : v = !w := by cases v <;> cases w <;> simp_all
    subst this
    simp only [readMetric, writeMetric, buf_setBuf_other]

/-- What a renormalization does to both buffers (R163). -/
theorem buf_renormalize_same (w : Bool) (ms : Nat) (s : State) :
    buf (renormalize w ms s) w = (buf s w).map fun m => m - readMetric s w ms := buf_setBuf_same _ _ _

theorem buf_renormalize_other (w : Bool) (ms : Nat) (s : State) :
    buf (renormalize w ms s) (!w) = buf s (!w) := buf_setBuf_other _ _ _

theorem readMetric_renormalize {s : State} {w : Bool} {i : Nat} (h : i < (buf s w).length) (ms : Nat) :
    readMetric (renormalize w ms s) w i = readMetric s w i - readMetric s w ms := by
  simp only [readMetric, buf_renormalize_same]
  simp [readElem, h]

/-! ## The canonical form -/

/-- `Memory.wf` field by field. -/
theorem memory_wf_iff (s : State) : Memory.wf s = true ↔
    s.pm0.length = s.params.numStates ∧ s.pm1.length = s.params.numStates ∧
    s.hist.length = s.params.cap ∧ (∀ l ∈ s.hist, l.length = s.params.numStates) ∧
    s.tbl.length = s.params.tblSize ∧ (∀ c ∈ s.tbl, c.toNat < s.params.numSymbols) ∧
    s.keys.length = s.params.numPairs ∧
    s.outs.length = s.params.outCap ∧ (∀ v ∈ s.outs, v.toNat < s.params.numPairValues) ∧
    s.dist.length = s.params.outCap ∧ s.sym.length = s.params.numSymbols := by
  simp [Memory.wf, and_assoc]

/-- The form depends on the parameters and the arrays only. -/
theorem memory_wf_congr {s t : State} (hp : t.params = s.params) (h0 : t.pm0 = s.pm0) (h1 : t.pm1 = s.pm1)
    (hh : t.hist = s.hist) (ht : t.tbl = s.tbl) (hk : t.keys = s.keys) (ho : t.outs = s.outs)
    (hd : t.dist = s.dist) (hs : t.sym = s.sym) : Memory.wf t = Memory.wf s := by
  simp only [Memory.wf, hp, h0, h1, hh, ht, hk, ho, hd, hs]

theorem length_buf {s : State} (h : Memory.wf s = true) (w : Bool) : (buf s w).length = s.params.numStates := by
  obtain ⟨h0, h1, -⟩ := (memory_wf_iff s).mp h
  unfold buf pmBuffer
  split
  · exact h1
  · exact h0

theorem memory_wf_setBuf {s : State} (h : Memory.wf s = true) {w : Bool} {l : List Metric}
    (hl : l.length = s.params.numStates) : Memory.wf (setBuf w l s) = true := by
  rw [memory_wf_iff] at h ⊢
  obtain ⟨h0, h1, rest⟩ := h
  refine ⟨?_, ?_, by simpa using rest⟩
  all_goals
    simp only [setBuf_pm0, setBuf_pm1, setBuf_params]
    split <;> assumption

theorem memory_wf_writeMetric {s : State} (h : Memory.wf s = true) (w : Bool) (i : Nat) (m : Metric) :
    Memory.wf (writeMetric w i m s) = true :=
  memory_wf_setBuf h (by rw [length_writeElem, length_buf h])

theorem memory_wf_renormalize {s : State} (h : Memory.wf s = true) (w : Bool) (ms : Nat) :
    Memory.wf (renormalize w ms s) = true :=
  memory_wf_setBuf h (by rw [List.length_map, length_buf h])

theorem memory_wf_respond (r : BitVec 32) (s : State) : Memory.wf (respond r s) = Memory.wf s := rfl

theorem memory_wf_sendBatch (l : List Bool) (s : State) : Memory.wf (sendBatch l s) = Memory.wf s := rfl

theorem memory_wf_commitSlice (s : State) : Memory.wf (commitSlice s) = Memory.wf s := rfl

theorem memory_wf_resetHistory (s : State) : Memory.wf (resetHistory s) = Memory.wf s := rfl

theorem length_slice {s : State} (h : Memory.wf s = true) {p : Nat} (hp : p < s.params.cap) :
    (slice s p).length = s.params.numStates := by
  obtain ⟨-, -, h3, h4, -⟩ := (memory_wf_iff s).mp h
  have : slice s p = s.hist[p]'(h3 ▸ hp) := by simp [slice, h3, hp]
  exact this ▸ h4 _ (List.getElem_mem _)

theorem memory_wf_writeEntry {s : State} (h : Memory.wf s = true) (p i : Nat) (v : Entry) :
    Memory.wf (writeEntry p i v s) = true := by
  by_cases hp : p < s.params.cap
  · have hl := length_slice h hp
    rw [memory_wf_iff] at h ⊢
    obtain ⟨h0, h1, h2, h3, rest⟩ := h
    refine ⟨h0, h1, by simpa using h2, ?_, by simpa using rest⟩
    intro l hl'
    rcases List.mem_or_eq_of_mem_set hl' with hm | rfl
    · exact h3 l hm
    · simpa using hl
  · have : writeElem s.hist p (writeElem (slice s p) i v) = s.hist :=
      List.set_eq_of_length_le (by
        obtain ⟨-, -, h2, -⟩ := (memory_wf_iff s).mp h
        omega)
    rw [memory_wf_congr (s := s)] <;> first | exact h | rfl | exact this

theorem readEntry_writeEntry_same {s : State} (h : Memory.wf s = true) {p i : Nat} (hp : p < s.params.cap)
    (hi : i < s.params.numStates) (v : Entry) : readEntry (writeEntry p i v s) p i = v := by
  obtain ⟨-, -, h2, -⟩ := (memory_wf_iff s).mp h
  have : slice (writeEntry p i v s) p = writeElem (slice s p) i v := by simp [slice, writeElem, h2, hp]
  rw [readEntry, this]
  exact readElem_writeElem_same (by rw [length_slice h hp]; exact hi) v

theorem readEntry_writeEntry_ne {s : State} {p q i j : Nat} (hne : (p, i) ≠ (q, j)) (v : Entry) :
    readEntry (writeEntry p i v s) q j = readEntry s q j := by
  by_cases hpq : p = q
  · subst hpq
    by_cases hp : p < s.hist.length
    · have : slice (writeEntry p i v s) p = writeElem (slice s p) i v := by
        simp [slice, writeElem, hp]
      rw [readEntry, this, readEntry]
      exact readElem_writeElem_ne _ (fun e => hne (by rw [e])) v
    · simp [readEntry, slice, writeElem, List.set_eq_of_length_le (Nat.not_lt.mp hp)]
  · simp [readEntry, slice, writeElem, List.getElem?_set_ne hpq]

theorem memory_wf_resetMetrics {s : State} (h : Memory.wf s = true) : Memory.wf (resetMetrics s) = true := by
  rw [memory_wf_iff] at h ⊢
  obtain ⟨-, -, rest⟩ := h
  exact ⟨by simp, by simp, rest⟩

theorem memory_wf_writeTable {s : State} (h : Memory.wf s = true) (e : Nat) {c : Codeword}
    (hc : c.toNat < s.params.numSymbols) : Memory.wf { s with tbl := writeElem s.tbl e c } = true := by
  rw [memory_wf_iff] at h ⊢
  obtain ⟨h0, h1, h2, h3, h4, h5, rest⟩ := h
  refine ⟨h0, h1, h2, h3, by simpa using h4, ?_, rest⟩
  intro x hx
  rcases List.mem_or_eq_of_mem_set hx with hm | rfl
  · exact h5 x hm
  · exact hc

theorem memory_wf_writeSymbol {s : State} (h : Memory.wf s = true) (i : Nat) (d : Distance) :
    Memory.wf { s with sym := writeElem s.sym i d } = true := by
  rw [memory_wf_iff] at h ⊢
  obtain ⟨h0, h1, h2, h3, h4, h5, h6, h7, h8, h9, h10⟩ := h
  exact ⟨h0, h1, h2, h3, h4, h5, h6, h7, h8, h9, by simpa using h10⟩

theorem memory_wf_fillDistances {s : State} (h : Memory.wf s = true) : Memory.wf (fillDistances s) = true := by
  rw [memory_wf_iff] at h ⊢
  obtain ⟨h0, h1, h2, h3, h4, h5, h6, h7, h8, h9, h10⟩ := h
  exact ⟨h0, h1, h2, h3, h4, h5, h6, h7, h8, by simpa [fillDistances] using h9, h10⟩

/-- Hard reset of any instance leaves every array in canonical form. -/
theorem memory_wf_afterHardReset (p : Params) (n : Nat) : Memory.wf (State.afterHardReset p n) = true := by
  have hr : p.numSymbols ≤ 2 ^ 8 := Nat.pow_le_pow_right (by decide) p.legal.2.2.2.2.1.2
  have hv : p.numPairValues ≤ 2 ^ 16 := Nat.pow_le_pow_right (by decide) (by have := p.legal.2.2.2.2.1.2; omega)
  have hs : 0 < p.numSymbols := Nat.two_pow_pos _
  have hw : 0 < p.numPairValues := Nat.two_pow_pos _
  rw [memory_wf_iff]
  refine ⟨?_, ?_, ?_, ?_, ?_, ?_, ?_, ?_, ?_, ?_, ?_⟩ <;>
    simp only [State.afterHardReset, List.length_replicate, List.length_map, List.length_range, List.mem_map,
      List.mem_range, forall_exists_index, and_imp]
  · rintro l q - rfl
    simp
  · rintro c e - rfl
    rw [BitVec.toNat_ofNat, Nat.mod_eq_of_lt (Nat.lt_of_lt_of_le (Nat.mod_lt _ hs) hr)]
    exact Nat.mod_lt _ hs
  · rintro v k - rfl
    rw [BitVec.toNat_ofNat, Nat.mod_eq_of_lt (Nat.lt_of_lt_of_le (Nat.mod_lt _ hw) hv)]
    exact Nat.mod_lt _ hw

end Sys2Proof.Machine
end

