-- ==== Sys2Proof/Laws/Build.lean ====
section
/-! SUPPORT. What `BM.BUILD` and `BM.FILL` compute (P196, R196 to R199, R205, R206): the loop of P196 against its
closed form, the distinct pair values in order of first appearance. -/

namespace Sys2Proof.Machine

/-! ## Distinct values in order of first appearance -/

theorem firstSeen_append_singleton (l : List PairValue) (v : PairValue) :
    firstSeen (l ++ [v]) = if v ∈ firstSeen l then firstSeen l else firstSeen l ++ [v] := by
  unfold firstSeen
  rw [List.foldl_append]
  rfl

theorem mem_firstSeen (l : List PairValue) (v : PairValue) : v ∈ firstSeen l ↔ v ∈ l := by
  induction l using List.reverseRecOn with
  | nil => simp [firstSeen]
  | append_singleton l x ih =>
    rw [firstSeen_append_singleton]
    split
    · rename_i h
      simp only [List.mem_append, List.mem_singleton]
      refine ⟨fun hv => .inl (ih.mp hv), ?_⟩
      rintro (hv | rfl)
      · exact ih.mpr hv
      · exact h
    · simp [ih]

theorem nodup_firstSeen (l : List PairValue) : (firstSeen l).Nodup := by
  induction l using List.reverseRecOn with
  | nil => simp [firstSeen]
  | append_singleton l x ih =>
    rw [firstSeen_append_singleton]
    split
    · exact ih
    · rename_i h
      exact List.Nodup.append ih (by simp) (by simpa using h)

theorem length_firstSeen_le (l : List PairValue) : (firstSeen l).length ≤ l.length := by
  induction l using List.reverseRecOn with
  | nil => simp [firstSeen]
  | append_singleton l x ih =>
    rw [firstSeen_append_singleton]
    split <;> simp <;> omega

/-- The slot of a value: the map `seen` of P196 after the values `l`. -/
theorem lookup_zipIdx (l : List PairValue) (v : PairValue) (k : Nat) :
    (l.zipIdx k).lookup v = if v ∈ l then some (k + l.idxOf v) else none := by
  induction l generalizing k with
  | nil => simp
  | cons x l ih =>
    rw [List.zipIdx_cons, List.lookup_cons, ih]
    by_cases h : v = x
    · simp [h]
    · have h' : (v == x) = false := by simpa using h
      have hx : x ≠ v := fun e => h e.symm
      simp only [h', List.mem_cons, h, false_or, List.idxOf_cons_ne _ hx]
      split
      · congr 1
        omega
      · rfl

/-! ## The loop of P196 -/

/-- The variables of P196 after the values `l`, in closed form. -/
def buildClosed (outCap : Nat) (l : List PairValue) : BuildVars where
  seen := (firstSeen l).zipIdx 1
  outs := 0 :: (firstSeen l ++ List.replicate (outCap - 1 - (firstSeen l).length) 0)
  keys := l.map fun v => BitVec.ofNat 16 (1 + (firstSeen l).idxOf v)
  cnt := 1 + (firstSeen l).length

theorem foldl_buildStep_eq {outCap : Nat} (h1 : 1 ≤ outCap) (l : List PairValue)
    (hl : (firstSeen l).length ≤ outCap - 1) :
    l.foldl buildStep { seen := [], outs := List.replicate outCap 0, keys := [], cnt := 1 } = buildClosed outCap l := by
  induction l using List.reverseRecOn with
  | nil =>
    obtain ⟨n, rfl⟩ : ∃ n, outCap = n + 1 := ⟨outCap - 1, by omega⟩
    simp [buildClosed, firstSeen, List.replicate_succ]
  | append_singleton l v ih =>
    rw [firstSeen_append_singleton] at hl
    have keys_stable : ∀ e : List PairValue,
        (l.map fun u => BitVec.ofNat 16 (1 + (firstSeen l ++ e).idxOf u)) =
          l.map fun u => BitVec.ofNat 16 (1 + (firstSeen l).idxOf u) := by
      intro e
      apply List.map_congr_left
      intro u hu
      rw [List.idxOf_append_of_mem ((mem_firstSeen l u).mpr hu)]
    have hl' : (firstSeen l).length ≤ outCap - 1 := by
      split at hl
      · exact hl
      · rw [List.length_append] at hl
        omega
    rw [List.foldl_append, ih hl']
    simp only [List.foldl_cons, List.foldl_nil, buildStep, buildClosed, lookup_zipIdx, firstSeen_append_singleton]
    by_cases hv : v ∈ firstSeen l
    · simp [hv]
    · simp only [hv, if_false] at hl ⊢
      simp only [List.length_append, List.length_cons, List.length_nil] at hl
      have idx : (firstSeen l ++ [v]).idxOf v = (firstSeen l).length := by
        rw [List.idxOf_append_of_notMem hv]
        simp
      obtain ⟨n, hn⟩ : ∃ n, outCap - 1 - (firstSeen l).length = n + 1 := ⟨outCap - 1 - (firstSeen l).length - 1, by omega⟩
      have hn' : outCap - 1 - ((firstSeen l).length + 1) = n := by omega
      congr 1
      · rw [List.zipIdx_append]
        simp
      · simp only [writeElem, hn, List.length_append, List.length_cons, List.length_nil, Nat.zero_add, hn',
          List.replicate_succ]
        rw [Nat.add_comm 1, List.set_cons_succ, List.set_append]
        simp
      · rw [List.map_append, keys_stable]
        simp [idx]
      · simp
        omega

/-! ## The pair values -/

/-- Under the array invariant the shift-and-OR of P196 is the number `TBL[2p+1] * 2^RATE + TBL[2p]`, and it fits
`2*RATE` bits (R227 (5): "nothing is lost"). -/
theorem pairValue_facts {s : State} (h : Memory.wf s = true) (p : Nat) :
    pairValue s p = pairNumber s p ∧
    (pairNumber s p).toNat = (readElem s.tbl (2 * p + 1)).toNat * 2 ^ s.params.rate + (readElem s.tbl (2 * p)).toNat ∧
    (pairNumber s p).toNat < s.params.numPairValues := by
  obtain ⟨-, -, -, -, -, ht, -⟩ := (memory_wf_iff s).mp h
  have fits : ∀ i, (readElem s.tbl i).toNat < 2 ^ s.params.rate :=
    readElem_of_forall (P := fun c => c.toNat < 2 ^ s.params.rate) ht (Nat.two_pow_pos _)
  have hr : s.params.rate ≤ 8 := s.params.legal.2.2.2.2.1.2
  have hb := fits (2 * p + 1)
  have ha := fits (2 * p)
  have h16 : 2 ^ (2 * s.params.rate) ≤ 2 ^ 16 := Nat.pow_le_pow_right (by decide) (by omega)
  have sq : 2 ^ (2 * s.params.rate) = 2 ^ s.params.rate * 2 ^ s.params.rate := by rw [Nat.two_mul, pow_add]
  have lt : (readElem s.tbl (2 * p + 1)).toNat * 2 ^ s.params.rate + (readElem s.tbl (2 * p)).toNat <
      2 ^ (2 * s.params.rate) := by
    rw [sq]
    calc _ < (readElem s.tbl (2 * p + 1)).toNat * 2 ^ s.params.rate + 2 ^ s.params.rate := by omega
      _ = ((readElem s.tbl (2 * p + 1)).toNat + 1) * 2 ^ s.params.rate := by rw [Nat.add_mul, Nat.one_mul]
      _ ≤ _ := Nat.mul_le_mul_right _ hb
  have e : (pairNumber s p).toNat =
      (readElem s.tbl (2 * p + 1)).toNat * 2 ^ s.params.rate + (readElem s.tbl (2 * p)).toNat := by
    simp only [pairNumber, BitVec.toNat_ofNat]
    exact Nat.mod_eq_of_lt (by omega)
  refine ⟨BitVec.eq_of_toNat_eq ?_, e, e ▸ lt⟩
  have w1 : (readElem s.tbl (2 * p + 1)).toNat % 2 ^ 16 = (readElem s.tbl (2 * p + 1)).toNat :=
    Nat.mod_eq_of_lt (by omega)
  have w2 : (readElem s.tbl (2 * p)).toNat % 2 ^ 16 = (readElem s.tbl (2 * p)).toNat :=
    Nat.mod_eq_of_lt (by omega)
  rw [e]
  simp only [pairValue, BitVec.toNat_or, BitVec.toNat_shiftLeft, BitVec.toNat_setWidth, w1, w2, Nat.shiftLeft_eq]
  rw [Nat.mod_eq_of_lt (by omega), ← Nat.shiftLeft_eq, ← Nat.shiftLeft_add_eq_or_of_lt ha]

theorem pairValues_eq {s : State} (h : Memory.wf s = true) : pairValues s = pairList s :=
  List.map_congr_left fun p _ => (pairValue_facts h p).1

/-- "`OUT_CAP` slots always suffice" (R198). -/
theorem length_firstSeen_pairList_le {s : State} (h : Memory.wf s = true) :
    (firstSeen (pairList s)).length ≤ s.params.outCap - 1 := by
  have h1 : (firstSeen (pairList s)).length ≤ s.params.numPairs := by
    have := length_firstSeen_le (pairList s)
    simpa [pairList] using this
  have h2 : (firstSeen (pairList s)).length ≤ s.params.numPairValues := by
    have nd : ((firstSeen (pairList s)).map BitVec.toNat).Nodup :=
      (nodup_firstSeen _).map fun _ _ => BitVec.eq_of_toNat_eq
    have sub : ((firstSeen (pairList s)).map BitVec.toNat) ⊆ List.range s.params.numPairValues := by
      intro x hx
      obtain ⟨v, hv, rfl⟩ := List.mem_map.mp hx
      obtain ⟨p, -, rfl⟩ := List.mem_map.mp ((mem_firstSeen _ _).mp hv)
      exact List.mem_range.mpr (pairValue_facts h p).2.2
    simpa using (nd.subperm sub).length_le
  unfold Params.outCap
  omega

/-- P196 in closed form. -/
theorem buildLoop_eq {s : State} (h : Memory.wf s = true) :
    buildLoop s = buildClosed s.params.outCap (pairList s) := by
  rw [buildLoop, pairValues_eq h]
  exact foldl_buildStep_eq (by simp [Params.outCap]) _ (length_firstSeen_pairList_le h)

/-- The size of the built table as a number (R37: it fits 16 bits). -/
theorem outCap_lt (p : Params) : p.outCap ≤ 2 ^ 15 + 1 := by
  have h1 : p.numPairs ≤ 2 ^ 15 := Nat.pow_le_pow_right (by decide) (by have := p.legal.2.2.2.2.2.2; omega)
  unfold Params.outCap
  omega

theorem outlen_buildTable {s : State} (h : Memory.wf s = true) :
    (buildTable s).outlen.toNat = 1 + (firstSeen (pairList s)).length := by
  have := length_firstSeen_pairList_le h
  have := outCap_lt s.params
  simp only [buildTable_outlen, buildLoop_eq h, buildClosed, BitVec.toNat_ofNat]
  omega

/-- `KEYS[p]` after a build: one more than the rank of the pair's value. -/
theorem keys_buildTable {s : State} (h : Memory.wf s = true) {p : Nat} (hp : p < s.params.numPairs) :
    (readElem (buildTable s).keys p).toNat = 1 + (firstSeen (pairList s)).idxOf (pairNumber s p) := by
  have hm : pairNumber s p ∈ firstSeen (pairList s) :=
    (mem_firstSeen _ _).mpr (List.mem_map.mpr ⟨p, List.mem_range.mpr hp, rfl⟩)
  have := List.idxOf_lt_length_of_mem hm
  have := length_firstSeen_pairList_le h
  have := outCap_lt s.params
  simp only [buildTable_keys, buildLoop_eq h, buildClosed]
  rw [pairList, List.map_map, readElem_map_range _ hp]
  simp only [Function.comp, BitVec.toNat_ofNat]
  rw [← pairList]
  omega

/-- A slot of the built table: 0, then the distinct values, then zeros. -/
theorem outs_buildTable {s : State} (h : Memory.wf s = true) :
    readElem (buildTable s).outs 0 = 0 ∧
    (∀ k (hk : k < (firstSeen (pairList s)).length), readElem (buildTable s).outs (k + 1) = (firstSeen (pairList s))[k]) ∧
    (∀ k, (firstSeen (pairList s)).length < k → readElem (buildTable s).outs k = 0) := by
  simp only [buildTable_outs, buildLoop_eq h, buildClosed]
  refine ⟨by simp [readElem], ?_, ?_⟩
  · intro k hk
    simp [readElem, List.getElem?_append_left hk, hk]
  · intro k hk
    obtain ⟨j, rfl⟩ : ∃ j, k = j + 1 := ⟨k - 1, by omega⟩
    simp only [readElem, List.getD_eq_getElem?_getD, List.getElem?_cons_succ]
    rw [List.getElem?_append_right (by omega), List.getElem?_replicate]
    split <;> rfl

/-- The built table is what R35 to R38 and R198 say. -/
theorem tableInv_buildTable {s : State} (h : Memory.wf s = true) : TableInv (buildTable s) := by
  obtain ⟨o0, ok, ou⟩ := outs_buildTable h
  have len := outlen_buildTable h
  have bound := length_firstSeen_pairList_le h
  have hcap : 1 ≤ s.params.outCap := by simp [Params.outCap]
  have np : 0 < s.params.numPairs := Nat.two_pow_pos _
  have rank : ∀ p, p < s.params.numPairs →
      (firstSeen (pairList s)).idxOf (pairNumber s p) < (firstSeen (pairList s)).length := fun p hp =>
    List.idxOf_lt_length_of_mem
      ((mem_firstSeen _ _).mpr (List.mem_map.mpr ⟨p, List.mem_range.mpr hp, rfl⟩))
  refine ⟨?_, ?_, ⟨o0, readElem_replicate _ _⟩, ?_, ?_⟩
  · have := rank 0 np
    rw [len]
    simp only [buildTable_params]
    omega
  · intro p hp
    simp only [buildTable_params] at hp
    have := rank p hp
    rw [len, keys_buildTable h hp]
    omega
  · intro j k hj hjk hk
    obtain ⟨j, rfl⟩ : ∃ i, j = i + 1 := ⟨j - 1, by omega⟩
    obtain ⟨k, rfl⟩ : ∃ i, k = i + 1 := ⟨k - 1, by omega⟩
    rw [ok j (by omega), ok k (by omega)]
    intro e
    have := (List.Nodup.getElem_inj_iff (nodup_firstSeen (pairList s))).mp e
    omega
  · intro k hk
    exact ⟨ou k (by omega), readElem_replicate _ _⟩

/-- `OUTS[KEYS[p]]` is pair `p`'s value (R198). -/
theorem outs_keys_buildTable {s : State} (h : Memory.wf s = true) {p : Nat} (hp : p < s.params.numPairs) :
    readElem (buildTable s).outs (readElem (buildTable s).keys p).toNat = pairNumber s p := by
  have hm : pairNumber s p ∈ firstSeen (pairList s) :=
    (mem_firstSeen _ _).mpr (List.mem_map.mpr ⟨p, List.mem_range.mpr hp, rfl⟩)
  rw [keys_buildTable h hp, Nat.add_comm, (outs_buildTable h).2.1 _ (List.idxOf_lt_length_of_mem hm)]
  exact List.getElem_idxOf _

theorem memory_wf_buildTable {s : State} (h : Memory.wf s = true) : Memory.wf (buildTable s) = true := by
  have bound := length_firstSeen_pairList_le h
  have hcap : 1 ≤ s.params.outCap := by simp [Params.outCap]
  have e := buildLoop_eq h
  have hw := h
  rw [memory_wf_iff] at h ⊢
  obtain ⟨h0, h1, h2, h3, h4, h5, -, -, -, -, h10⟩ := h
  refine ⟨h0, h1, h2, h3, h4, h5, ?_, ?_, ?_, by simp, h10⟩
  · simp [e, buildClosed, pairList]
  · simp only [buildTable_outs, e, buildClosed, List.length_cons, List.length_append, List.length_replicate,
      buildTable_params]
    omega
  · intro v hv
    simp only [buildTable_outs, e, buildClosed, List.mem_cons, List.mem_append, List.mem_replicate] at hv
    have z : (0 : PairValue).toNat < s.params.numPairValues := Nat.two_pow_pos _
    rcases hv with rfl | hv | ⟨-, rfl⟩
    · exact z
    · obtain ⟨p, -, rfl⟩ := List.mem_map.mp ((mem_firstSeen _ _).mp hv)
      exact (pairValue_facts hw p).2.2
    · exact z

/-! ## Filling -/

@[simp] theorem laneLow_packDistance (hi lo : Distance) : laneLow (packDistance hi lo) = lo := by
  unfold laneLow packDistance
  ext i hi'
  simp [hi', show i < 32 by omega]

@[simp] theorem laneHigh_packDistance (hi lo : Distance) : laneHigh (packDistance hi lo) = hi := by
  unfold laneHigh packDistance
  ext i hi'
  simp [show 16 + i < 32 by omega, BitVec.getLsbD_eq_getElem hi']

/-- `DIST` after a fill, slot by slot (R205). -/
theorem dist_fillDistances (s : State) (k : Nat) : readElem (fillDistances s).dist k =
    if 1 ≤ k ∧ k < s.outlen.toNat ∧ k < s.dist.length then slotDistance s k else readElem s.dist k := by
  simp only [fillDistances, readElem, List.getD_eq_getElem?_getD, List.getElem?_mapIdx]
  by_cases hk : k < s.dist.length
  · simp only [hk, and_true, List.getElem?_eq_getElem, Option.map_some, Option.getD_some]
  · simp [hk]

/-- The lanes of a slot name the symbols of its pair (R205, R206). -/
theorem slotDistance_eq (s : State) (k : Nat) : slotDistance s k =
    packDistance (readElem s.sym ((readElem s.outs k).toNat / 2 ^ s.params.rate % 2 ^ s.params.rate))
      (readElem s.sym ((readElem s.outs k).toNat % 2 ^ s.params.rate)) := by
  simp [slotDistance, bitsOf]

theorem tableInv_fillDistances {s : State} (h : TableInv s) : TableInv (fillDistances s) := by
  refine ⟨h.outlen_range, h.keys_range, ⟨h.sentinel.1, ?_⟩, h.distinct, ?_⟩
  · rw [dist_fillDistances]
    simpa using h.sentinel.2
  · intro k hk
    simp only [fillDistances_outlen] at hk
    rw [dist_fillDistances, if_neg (by omega)]
    exact h.unused k hk

end Sys2Proof.Machine
end

