-- ==== Sys2Proof/Laws/Command.lean ====
section
/-! SUPPORT. Once and for all, what `command` and `step` can answer. -/

namespace Sys2Proof.Machine

/-- Every command goes on, in one of three ways: refused, faulted, or completed (R112, R244). -/
theorem command_cases {v : Option Cause} {f : State → State} {s : State} {o : Host.Outcome State Fault Refusal}
    (h : command v f s = o) :
    (s.fault = true ∧ o = .next (refuseFaulted s)) ∨
    (s.fault = false ∧ ∃ c, v = some c ∧ o = .next (takeFault c s)) ∨
    (s.fault = false ∧ v = none ∧ o = .next (f s)) := by
  subst h
  unfold command
  cases hf : s.fault with
  | true => exact .inl ⟨rfl, by simp⟩
  | false =>
    cases v with
    | some c => exact .inr (.inl ⟨rfl, c, rfl, by simp⟩)
    | none => exact .inr (.inr ⟨rfl, rfl, by simp⟩)

theorem command_faulted {v : Option Cause} {f : State → State} {s : State} (h : s.fault = true) :
    command v f s = .next (refuseFaulted s) := by simp [command, h]

theorem command_violation {c : Cause} {f : State → State} {s : State} (h : s.fault = false) :
    command (some c) f s = .next (takeFault c s) := by simp [command, h]

theorem command_completes {f : State → State} {s : State} (h : s.fault = false) :
    command none f s = .next (f s) := by simp [command, h]

theorem checkIndex_ok {i n : Nat} (h : i < n) : checkIndex i n = none := by simp [checkIndex, h]

theorem checkIndex_bad {i n : Nat} (h : n ≤ i) : checkIndex i n = some .index := by
  simp [checkIndex, Nat.not_lt.mpr h]

theorem checkStride_ok {n : Nat} (h : 1 ≤ n) : checkStride n = none := by
  simp [checkStride, Nat.one_le_iff_ne_zero.mp h]

theorem checkBuilt_ok {s : State} (h : s.built = true) : checkBuilt s = none := by simp [checkBuilt, h]

theorem checkBuilt_bad {s : State} (h : s.built = false) : checkBuilt s = some .notBuilt := by simp [checkBuilt, h]

theorem checkCodeword_ok {s : State} {c : BitVec 16} (h : c.toNat < s.params.numSymbols) :
    checkCodeword s c = none := by simp [checkCodeword, h]

theorem checkCodeword_bad {s : State} {c : BitVec 16} (h : s.params.numSymbols ≤ c.toNat) :
    checkCodeword s c = some .value := by simp [checkCodeword, Nat.not_lt.mpr h]

theorem checkWarmup_ok {s : State} {m : Nat} (h : m ≤ s.len.toNat) : checkWarmup s m = none := by
  simp [checkWarmup, h]

theorem checkWarmup_bad {s : State} {m : Nat} (h : s.len.toNat < m) : checkWarmup s m = some .tblen := by
  simp [checkWarmup, Nat.not_le.mpr h]

@[simp] theorem firstOf_none (y : Option Cause) : firstOf none y = y := rfl

@[simp] theorem firstOf_some (c : Cause) (y : Option Cause) : firstOf (some c) y = some c := rfl

/-- The violation each command reports, if any (R112 (5) to (7), R233 to R239). -/
def violation (i : Instr) (s : State) : Option Cause :=
  match i with
  | .sysNop | .pmReset | .pmSwap | .dhReset | .dhProc _ | .dhFlush | .bmBuild => none
  | .sysRdreg r => checkRegister s r
  | .pmRdc st | .pmRdo st | .dhSlrd st => checkIndex st s.params.numStates
  | .pmWrc st _ | .pmWro st _ => checkIndex st s.params.numStates
  | .dhSlwr st _ => checkIndex st s.params.numStates
  | .dhSearch stride _ | .dhProcskip stride _ => checkStride stride
  | .dhRenorm ms _ => checkIndex ms s.params.numStates
  | .dhTraceback best mtb => firstOf (checkIndex best s.params.numStates) (checkWarmup s mtb)
  | .bmTblwr e c => firstOf (checkIndex e s.params.tblSize) (checkCodeword s c)
  | .bmTblrd e => checkIndex e s.params.tblSize
  | .bmGetkey p => firstOf (checkBuilt s) (checkIndex p s.params.numPairs)
  | .bmSymwr sy _ => checkIndex sy s.params.numSymbols
  | .bmSymrd sy => checkIndex sy s.params.numSymbols
  | .bmFill => checkBuilt s
  | .bmGetdist k | .bmGetout k => firstOf (checkBuilt s) (checkIndex k s.outlen.toNat)

/-- The state each command leaves when it completes. -/
def effect (i : Instr) (s : State) : State :=
  match i with
  | .sysNop => respond 0 s
  | .sysRdreg r => respond ((regValue s r).getD 0) s
  | .pmReset => respond 0 (resetMetrics s)
  | .pmSwap => respond 0 { s with sel := !s.sel }
  | .pmRdc st => respond ((readMetric s false st).setWidth 32) s
  | .pmWrc st m => respond 0 (writeMetric false st m s)
  | .pmRdo st => respond ((readMetric s true st).setWidth 32) s
  | .pmWro st m => respond 0 (writeMetric true st m s)
  | .dhReset => respond 0 (resetHistory s)
  | .dhSlrd st => respond ((readEntry s s.idx.toNat st).setWidth 32) s
  | .dhSlwr st v => respond 0 (writeEntry s.idx.toNat st v s)
  | .dhSearch stride w => respond (BitVec.ofNat 32 (search s w stride)) s
  | .dhRenorm ms w => respond 0 (renormalize w ms s)
  | .dhTraceback best mtb => respondCount (traceback best mtb s)
  | .dhProcskip skip w => respondCount (procskip skip w s)
  | .dhProc w => respondCount (procskip 1 w s)
  | .dhFlush => respondCount (traceback 0 0 s)
  | .bmTblwr e c => respond 0 { s with tbl := writeElem s.tbl e (c.setWidth 8) }
  | .bmTblrd e => respond ((readElem s.tbl e).setWidth 32) s
  | .bmBuild => respond ((buildTable s).outlen.setWidth 32) (buildTable s)
  | .bmGetkey p => respond ((readElem s.keys p).setWidth 32) s
  | .bmSymwr sy d => respond 0 { s with sym := writeElem s.sym sy d }
  | .bmSymrd sy => respond ((readElem s.sym sy).setWidth 32) s
  | .bmFill => respond 0 (fillDistances s)
  | .bmGetdist k => respond (readElem s.dist k) s
  | .bmGetout k => respond ((readElem s.outs k).setWidth 32) s

/-- Every meaning is `command` of the command's check and effect. -/
theorem exec_eq_command (i : Instr) (s : State) : exec i s = command (violation i s) (effect i) s := by
  cases i <;> rfl

/-- Once for all commands: refused, faulted, or completed. -/
theorem exec_cases {i : Instr} {s t : State} (h : exec i s = .next t) :
    (s.fault = true ∧ t = refuseFaulted s) ∨
    (s.fault = false ∧ ∃ c, violation i s = some c ∧ t = takeFault c s) ∨
    (s.fault = false ∧ violation i s = none ∧ t = effect i s) := by
  rw [exec_eq_command] at h
  rcases command_cases h with ⟨hf, e⟩ | ⟨hf, c, hc, e⟩ | ⟨hf, hv, e⟩ <;> cases e
  · exact .inl ⟨hf, rfl⟩
  · exact .inr (.inl ⟨hf, c, hc, rfl⟩)
  · exact .inr (.inr ⟨hf, hv, rfl⟩)

theorem exec_violation {i : Instr} {s : State} {c : Cause} (hf : s.fault = false) (hv : violation i s = some c) :
    exec i s = .next (takeFault c s) := by rw [exec_eq_command, hv, command_violation hf]

theorem exec_completes {i : Instr} {s : State} (hf : s.fault = false) (hv : violation i s = none) :
    exec i s = .next (effect i s) := by rw [exec_eq_command, hv, command_completes hf]

/-- No command stops the model. -/
theorem exec_answers (i : Instr) (s : State) : ∃ t, exec i s = .next t := by
  rcases command_cases (exec_eq_command i s).symm with ⟨-, e⟩ | ⟨-, c, -, e⟩ | ⟨-, -, e⟩ <;> exact ⟨_, e⟩

theorem exec_faulted (i : Instr) {s : State} (h : s.fault = true) : exec i s = .next (refuseFaulted s) := by
  rw [exec_eq_command, command_faulted h]

/-- What a step does, by what is presented. -/
theorem step_idle {s : State} (h : s.input = []) : step s = .next s := by
  simp only [step, nextInput, h, idle]

theorem step_rst {s : State} {rest : List Input} (h : s.input = .rst :: rest) :
    step s = .next (hardReset { s with input := rest }) := by
  simp only [step, nextInput, h]

theorem step_cmd {s : State} {w : CommandWord} {rest : List Input} (h : s.input = .cmd w :: rest) :
    step s = match decode w with
      | .command i => exec i { s with input := rest }
      | .rejected r => .next (rejectWord r { s with input := rest }) := by
  cases hd : decode w <;> simp only [step, nextInput, h, hd]

end Sys2Proof.Machine
end

