-- ==== Sys2Proof/Laws/Decode.lean ====
section
/-! SUPPORT. The fields of a command word, and what each operand shape decodes to. -/

namespace Sys2Proof

/-- A command word as a number: `(OP << 40) | (A << 16) | B` (R113). -/
theorem commandWord_toNat (op : BitVec 8) (a : BitVec 24) (b : BitVec 16) :
    (commandWord op a b).toNat = op.toNat * 2 ^ 40 + (a.toNat * 2 ^ 16 + b.toNat) := by
  have ha : (a ++ b).toNat = a.toNat * 2 ^ 16 + b.toNat := by
    rw [BitVec.toNat_append, ← Nat.shiftLeft_add_eq_or_of_lt b.isLt, Nat.shiftLeft_eq]
  unfold commandWord
  rw [BitVec.toNat_append, ← Nat.shiftLeft_add_eq_or_of_lt (a ++ b).isLt, Nat.shiftLeft_eq, ha]

theorem opField_toNat (w : CommandWord) : (opField w).toNat = w.toNat / 2 ^ 40 := by
  have := w.isLt
  simp only [opField, BitVec.extractLsb'_toNat, Nat.shiftRight_eq_div_pow]
  omega

theorem aField_toNat (w : CommandWord) : (aField w).toNat = w.toNat / 2 ^ 16 % 2 ^ 24 := by
  simp only [aField, BitVec.extractLsb'_toNat, Nat.shiftRight_eq_div_pow]

theorem bField_toNat (w : CommandWord) : (bField w).toNat = w.toNat % 2 ^ 16 := by
  simp [bField, BitVec.extractLsb'_toNat]

@[simp] theorem opField_commandWord (op : BitVec 8) (a : BitVec 24) (b : BitVec 16) :
    opField (commandWord op a b) = op := by
  apply BitVec.eq_of_toNat_eq
  rw [opField_toNat, commandWord_toNat]
  have := a.isLt
  have := b.isLt
  omega

@[simp] theorem aField_commandWord (op : BitVec 8) (a : BitVec 24) (b : BitVec 16) :
    aField (commandWord op a b) = a := by
  apply BitVec.eq_of_toNat_eq
  rw [aField_toNat, commandWord_toNat]
  have := a.isLt
  have := b.isLt
  omega

@[simp] theorem bField_commandWord (op : BitVec 8) (a : BitVec 24) (b : BitVec 16) :
    bField (commandWord op a b) = b := by
  apply BitVec.eq_of_toNat_eq
  rw [bField_toNat, commandWord_toNat]
  have := b.isLt
  omega

/-- A word is its three fields (R101). -/
theorem commandWord_fields (w : CommandWord) : commandWord (opField w) (aField w) (bField w) = w := by
  apply BitVec.eq_of_toNat_eq
  rw [commandWord_toNat, opField_toNat, aField_toNat, bField_toNat]
  have := w.isLt
  omega

theorem decode_commandWord (op : BitVec 8) (a : BitVec 24) (b : BitVec 16) :
    decode (commandWord op a b) = decodeFields op.toNat a b := by
  simp [decode]

/-- A rejection for reserved bits, and an acceptance, of the shared test. -/
theorem orReserved_eq_command {c : Bool} {i j : Instr} (h : orReserved c i = .command j) : c = true ∧ i = j := by
  unfold orReserved at h
  split at h
  · exact ⟨‹_›, by simpa using h⟩
  · cases h

@[simp] theorem selectorB_bit (w : Bool) : (selectorB w).getLsbD 0 = w := by cases w <;> rfl

@[simp] theorem selectorB_rest (w : Bool) : (selectorB w).extractLsb' 1 15 = 0 := by cases w <;> rfl

/-- A field `B` whose bits above 0 are clear is its selector. -/
theorem selectorB_of_rest {b : BitVec 16} (h : b.extractLsb' 1 15 = 0) : selectorB (b.getLsbD 0) = b := by
  have hb : b.toNat / 2 = 0 := by
    have := congrArg BitVec.toNat h
    simp [BitVec.extractLsb'_toNat, Nat.shiftRight_eq_div_pow] at this
    omega
  apply BitVec.eq_of_toNat_eq
  have : b.toNat = 0 ∨ b.toNat = 1 := by omega
  rcases this with h0 | h0 <;> simp [selectorB, BitVec.getLsbD, h0]

/-- A field `B` whose upper byte is clear is its lower byte. -/
theorem byteB_of_rest {b : BitVec 16} (h : b.extractLsb' 8 8 = 0) : (b.extractLsb' 0 8).setWidth 16 = b := by
  have hb : b.toNat / 256 = 0 := by
    have := congrArg BitVec.toNat h
    simp [BitVec.extractLsb'_toNat, Nat.shiftRight_eq_div_pow] at this
    omega
  apply BitVec.eq_of_toNat_eq
  simp [BitVec.extractLsb'_toNat]
  omega

end Sys2Proof
end

