-- ==== Sys2Proof/Laws/PerInstr.lean ====
section
/-! SUPPORT. The per-command family `Fields`: the three fields of a well-formed command's word are its opcode and its
operands, none truncated. -/

namespace Sys2Proof.Laws.Fields

open Sys2Proof

def Statement (i : Instr) : Prop :=
  i.wf = true →
    opField (encode i) = opcode i ∧ (aField (encode i)).toNat = operandA i ∧ bField (encode i) = operandB i

/-- Every command at once: only the range of operand `A` matters. -/
theorem of_fits {i : Instr} (h : i.wf = true → fitsA (operandA i) = true) : Statement i := by
  intro hw
  have := h hw
  simp only [fitsA, decide_eq_true_eq] at this
  refine ⟨by simp [encode], ?_, by simp [encode]⟩
  simp [encode]
  omega

theorem sysNop : Statement (.sysNop) :=
  of_fits fun _ => rfl

theorem sysRdreg (r : Nat) : Statement (.sysRdreg r) :=
  of_fits fun h => h

theorem pmReset : Statement (.pmReset) :=
  of_fits fun _ => rfl

theorem pmSwap : Statement (.pmSwap) :=
  of_fits fun _ => rfl

theorem pmRdc (st : Nat) : Statement (.pmRdc st) :=
  of_fits fun h => h

theorem pmWrc (st : Nat) (m : Metric) : Statement (.pmWrc st m) :=
  of_fits fun h => h

theorem pmRdo (st : Nat) : Statement (.pmRdo st) :=
  of_fits fun h => h

theorem pmWro (st : Nat) (m : Metric) : Statement (.pmWro st m) :=
  of_fits fun h => h

theorem dhReset : Statement (.dhReset) :=
  of_fits fun _ => rfl

theorem dhSlrd (st : Nat) : Statement (.dhSlrd st) :=
  of_fits fun h => h

theorem dhSlwr (st : Nat) (v : Entry) : Statement (.dhSlwr st v) :=
  of_fits fun h => h

theorem dhSearch (stride : Nat) (w : Bool) : Statement (.dhSearch stride w) :=
  of_fits fun h => h

theorem dhRenorm (ms : Nat) (w : Bool) : Statement (.dhRenorm ms w) :=
  of_fits fun h => h

theorem dhTraceback (best mtb : Nat) : Statement (.dhTraceback best mtb) :=
  of_fits fun h => (Bool.and_eq_true_iff.mp h).1

theorem dhProcskip (skip : Nat) (w : Bool) : Statement (.dhProcskip skip w) :=
  of_fits fun h => h

theorem dhProc (w : Bool) : Statement (.dhProc w) :=
  of_fits fun _ => rfl

theorem dhFlush : Statement (.dhFlush) :=
  of_fits fun _ => rfl

theorem bmTblwr (e : Nat) (c : BitVec 16) : Statement (.bmTblwr e c) :=
  of_fits fun h => h

theorem bmTblrd (e : Nat) : Statement (.bmTblrd e) :=
  of_fits fun h => h

theorem bmBuild : Statement (.bmBuild) :=
  of_fits fun _ => rfl

theorem bmGetkey (p : Nat) : Statement (.bmGetkey p) :=
  of_fits fun h => h

theorem bmSymwr (i : Nat) (d : Distance) : Statement (.bmSymwr i d) :=
  of_fits fun h => h

theorem bmSymrd (i : Nat) : Statement (.bmSymrd i) :=
  of_fits fun h => h

theorem bmFill : Statement (.bmFill) :=
  of_fits fun _ => rfl

theorem bmGetdist (k : Nat) : Statement (.bmGetdist k) :=
  of_fits fun h => h

theorem bmGetout (k : Nat) : Statement (.bmGetout k) :=
  of_fits fun h => h

end Sys2Proof.Laws.Fields
end

