-- ==== Sys2Proof/Laws/Search.lean ====
section
/-! SUPPORT. What the search finds (R160 to R162). -/

namespace Sys2Proof.Machine

/-- `b` is the answer of a scan so far: a scanned state before `c` of least metric, the lowest of those. -/
structure Best (m : Nat → Nat) (stride c least b : Nat) : Prop where
  lt : b < c
  scanned : stride ∣ b
  metric : least = m b
  least_le : ∀ j, stride ∣ j → j < c → m b ≤ m j
  first : ∀ j, stride ∣ j → j < b → m b < m j

/-- A scan that has a best state ends with the best state of the whole range. -/
theorem searchLoop_best {m : Nat → Nat} {n stride : Nat} (hs : 1 ≤ stride) :
    ∀ (fuel c least b : Nat), stride ∣ c → n ≤ c + fuel → Best m stride c least b → b < n →
      ∃ r, searchLoop m n stride fuel c least b = r ∧ r < n ∧ stride ∣ r ∧
        (∀ j, stride ∣ j → j < n → m r ≤ m j) ∧ (∀ j, stride ∣ j → j < r → m r < m j) := by
  intro fuel
  induction fuel with
  | zero =>
    intro c least b _ hf hb hbn
    exact ⟨b, rfl, hbn, hb.scanned, fun j hj hjn => hb.least_le j hj (by omega), hb.first⟩
  | succ fuel ih =>
    intro c least b hc hf hb hbn
    unfold searchLoop
    have next : ∀ j, stride ∣ j → j < c + stride → j < c ∨ j = c := by
      intro j hj hlt
      rcases Nat.lt_trichotomy j c with h | h | h
      · exact .inl h
      · exact .inr h
      · have : stride ≤ j - c := Nat.le_of_dvd (by omega) (Nat.dvd_sub hj hc)
        omega
    split
    · rename_i hcn
      split
      · rename_i hlt
        refine ih (c + stride) (m c) c (Nat.dvd_add hc (Nat.dvd_refl _)) (by omega)
          ⟨by omega, hc, rfl, ?_, ?_⟩ hcn
        · intro j hj hjc
          rcases next j hj hjc with h | rfl
          · have := hb.least_le j hj h
            have := hb.metric
            omega
          · exact Nat.le_refl _
        · intro j hj hjc
          have := hb.least_le j hj hjc
          have := hb.metric
          omega
      · rename_i hge
        refine ih (c + stride) least b (Nat.dvd_add hc (Nat.dvd_refl _)) (by omega)
          ⟨by have := hb.lt; omega, hb.scanned, hb.metric, ?_, hb.first⟩ hbn
        intro j hj hjc
        rcases next j hj hjc with h | rfl
        · exact hb.least_le j hj h
        · have := hb.metric
          omega
    · exact ⟨b, rfl, hbn, hb.scanned, fun j hj hjn => hb.least_le j hj (by omega), hb.first⟩

/-- The search answers the scanned state of least metric, the lowest one of those (R160, R162). -/
theorem search_spec (s : State) (w : Bool) {stride : Nat} (hs : 1 ≤ stride) :
    search s w stride < s.params.numStates ∧ stride ∣ search s w stride ∧
    (∀ c, stride ∣ c → c < s.params.numStates →
      (readMetric s w (search s w stride)).toNat ≤ (readMetric s w c).toNat) ∧
    (∀ c, stride ∣ c → c < search s w stride →
      (readMetric s w (search s w stride)).toNat < (readMetric s w c).toNat) := by
  have hn : 0 < s.params.numStates := Nat.two_pow_pos _
  obtain ⟨n, hn'⟩ : ∃ n, s.params.numStates = n + 1 := ⟨s.params.numStates - 1, by omega⟩
  have h0 : (readMetric s w 0).toNat < searchSentinel := by
    have := (readMetric s w 0).isLt
    unfold searchSentinel
    omega
  have hb : Best (fun c => (readMetric s w c).toNat) stride (0 + stride) (readMetric s w 0).toNat 0 := by
    refine ⟨by omega, Nat.dvd_zero _, rfl, ?_, by omega⟩
    intro j hj hjc
    have : j = 0 := Nat.eq_zero_of_dvd_of_lt hj (by omega)
    simp [this]
  obtain ⟨r, hr, h⟩ := searchLoop_best (n := s.params.numStates) hs n _ _ 0
    (by simp) (by omega) hb hn
  have : search s w stride = r := by
    unfold search
    conv_lhs => rw [hn']
    unfold searchLoop
    simp only [hn', Nat.zero_add] at hr
    simp [h0, hr]
  rw [this]
  exact h

theorem search_lt (s : State) (w : Bool) {stride : Nat} (hs : 1 ≤ stride) :
    search s w stride < s.params.numStates := (search_spec s w hs).1

end Sys2Proof.Machine
end

