-- ==== Sys2Proof/Laws/Traceback.lean ====
section
/-! SUPPORT. What a traceback hands to the sink (R166 to R169): the loop of P166 against its closed form. -/

namespace Sys2Proof.Machine

theorem length_walk (s : State) (mtb : Nat) : ∀ (k j pos st : Nat),
    (walk s mtb k j pos st).length = j + k - max mtb j := by
  intro k
  induction k with
  | zero => intro j pos st; simp [walk]
  | succ k ih =>
    intro j pos st
    simp only [walk]
    split
    · simp only [List.length_cons, ih]
      omega
    · rw [ih]
      omega

/-- The number of bits of a traceback is `LEN - mtb` (R169). -/
theorem length_traceback_bits (s : State) (mtb best : Nat) :
    (walk s mtb s.len.toNat 0 s.idx.toNat best).length = s.len.toNat - mtb := by
  rw [length_walk]
  omega

/-- The position before step `j` of a walk from `IDX`; the one step `j` reads is one back. -/
theorem stepBack_walkPosition {s : State} (h : s.idx.toNat < s.params.cap) :
    stepBack s.params.cap s.idx.toNat = walkPosition s 0 := by
  unfold stepBack walkPosition
  split
  · rename_i h0
    rw [h0, Nat.mod_eq_of_lt (by omega)]
    omega
  · rw [show s.idx.toNat + s.params.cap - 1 - 0 = s.idx.toNat - 1 + s.params.cap by omega, Nat.add_mod_right,
      Nat.mod_eq_of_lt (by omega)]

theorem stepBack_walkPosition_succ {s : State} (h : s.idx.toNat < s.params.cap) {j : Nat} (hj : j + 1 < s.params.cap) :
    stepBack s.params.cap (walkPosition s j) = walkPosition s (j + 1) := by
  unfold stepBack walkPosition
  rcases Nat.lt_or_ge j s.idx.toNat with hlt | hge
  · have e : s.idx.toNat + s.params.cap - 1 - j = s.idx.toNat - 1 - j + s.params.cap := by omega
    rw [e, Nat.add_mod_right, Nat.mod_eq_of_lt (by omega)]
    split
    · rw [Nat.mod_eq_of_lt (by omega)]
      omega
    · have e' : s.idx.toNat + s.params.cap - 1 - (j + 1) = s.idx.toNat - 1 - j - 1 + s.params.cap := by omega
      rw [e', Nat.add_mod_right, Nat.mod_eq_of_lt (by omega)]
  · rw [Nat.mod_eq_of_lt (by omega), Nat.mod_eq_of_lt (by omega)]
    split <;> omega

theorem pathStep_eq (s : State) (best j : Nat) :
    pathStep s.params.highbit (walkState s best j) (readEntry s (walkPosition s j) (walkState s best j)) =
      walkState s best (j + 1) := by
  simp only [pathStep, isSet, walkState, Params.highbit, Nat.shiftRight_eq_div_pow, pow_one, bne_iff_ne, ne_eq]
  by_cases h : readEntry s (walkPosition s j) (walkState s best j) = 0 <;> simp [h]

theorem isSet_eq (s : State) (best j : Nat) :
    isSet (readEntry s (walkPosition s j) (walkState s best j)) = walkBit s best j := by
  unfold isSet walkBit
  rw [Bool.eq_iff_iff]
  simp

/-- The loop of P166 from step `j` on is the closed form from step `j` on. -/
theorem walk_eq {s : State} (h : s.idx.toNat < s.params.cap) (best mtb : Nat) : ∀ (k j pos : Nat),
    j + k ≤ s.params.cap → (0 < k → stepBack s.params.cap pos = walkPosition s j) →
    walk s mtb k j pos (walkState s best j) =
      (List.range (j + k - max mtb j)).map fun i => walkBit s best (max mtb j + i) := by
  intro k
  induction k with
  | zero => intro j pos _ _; simp [walk]
  | succ k ih =>
    intro j pos hk hp
    simp only [walk, hp (Nat.succ_pos k), pathStep_eq, isSet_eq]
    rw [ih (j + 1) (walkPosition s j) (by omega) (fun _ => stepBack_walkPosition_succ h (by omega))]
    split
    · rename_i hm
      rw [show max mtb (j + 1) = j + 1 by omega, show max mtb j = j by omega,
        show j + (k + 1) - j = k + 1 by omega, show j + 1 + k - (j + 1) = k by omega, List.range_succ_eq_map]
      simp only [List.map_cons, List.map_map, Nat.add_zero, List.cons.injEq, true_and]
      apply List.map_congr_left
      intro i _
      simp only [Function.comp]
      congr 1
      omega
    · rw [show max mtb (j + 1) = max mtb j by omega, show j + 1 + k = j + (k + 1) by omega]

/-- The batch of a traceback in closed form. -/
theorem traceback_bits_eq {s : State} (hi : s.idx.toNat < s.params.cap) (hl : s.len.toNat ≤ s.params.cap)
    (best mtb : Nat) : walk s mtb s.len.toNat 0 s.idx.toNat best = walkBatch s best mtb := by
  have := walk_eq hi best mtb s.len.toNat 0 s.idx.toNat (by omega) (fun _ => stepBack_walkPosition hi)
  simpa [walkBatch, walkState] using this

@[simp] theorem length_walkBatch (s : State) (best mtb : Nat) :
    (walkBatch s best mtb).length = s.len.toNat - mtb := by simp [walkBatch]

/-- Everything a traceback does (R166), given R33's ranges or `LEN = CAP`. -/
theorem traceback_eq {s : State} (hi : s.idx.toNat < s.params.cap) (hl : s.len.toNat ≤ s.params.cap)
    {best mtb : Nat} (hm : mtb ≤ s.len.toNat) :
    traceback best mtb s =
      (sendBatch (walkBatch s best mtb) { s with len := BitVec.ofNat 16 mtb }, s.len.toNat - mtb) := by
  simp only [traceback, traceback_bits_eq hi hl, length_walkBatch]
  rw [show s.len.toNat - (s.len.toNat - mtb) = mtb by omega]

/-- A traceback touches `LEN` and the sink only. -/
theorem traceback_frame (best mtb : Nat) (s : State) : ∃ n bits,
    (traceback best mtb s).1 = sendBatch bits { s with len := n } ∧ (traceback best mtb s).2 = bits.length ∧
    n = BitVec.ofNat 16 (s.len.toNat - bits.length) ∧ bits.length = s.len.toNat - mtb :=
  ⟨_, _, rfl, rfl, rfl, length_traceback_bits s mtb best⟩

end Sys2Proof.Machine
end

