-- ==== Sys2Proof/Laws/Process.lean ====
section
/-! SUPPORT. What `DH.PROCSKIP` and `DH.PROC` do (P171, R171 to R174). -/

namespace Sys2Proof.Machine

/-- All a process can change: `IDX`, `LEN`, `RCNT`, the buffer `BUF(W)`, and at most one batch to the sink. -/
theorem procskip_frame (skip : Nat) (w : Bool) (s : State) : ∃ l m c o,
    (procskip skip w s).1 =
      { setBuf w l s with idx := (commitSlice s).idx, len := m, rcnt := c, outputs := s.outputs ++ o } ∧
    l.length = (buf s w).length ∧
    ((o = [] ∧ (procskip skip w s).2 = 0) ∨ ∃ bits, o = [.batch bits] ∧ (procskip skip w s).2 = bits.length) := by
  have same : setBuf w (buf s w) s = s := by
    unfold setBuf buf setPmBuffer pmBuffer
    split <;> rfl
  have ren : ∀ best, renormalize w best { commitSlice s with rcnt := 0 } =
      { setBuf w ((buf s w).map fun m => m - readMetric s w best) s with
        idx := (commitSlice s).idx, len := (commitSlice s).len, rcnt := 0 } := by
    intro best
    unfold renormalize setBuf setPmBuffer
    cases h : (s.sel ^^ w) <;> simp [h] <;> rfl
  unfold procskip procActions
  split
  · split
    · obtain ⟨n, bits, e1, e2, -⟩ := traceback_frame (search (commitSlice s) w skip) (commitSlice s).params.minTb
        (renormalize w (search (commitSlice s) w skip) { commitSlice s with rcnt := 0 })
      refine ⟨(buf s w).map fun m => m - readMetric s w (search (commitSlice s) w skip), n, 0, [.batch bits], ?_,
        List.length_map _, .inr ⟨bits, rfl, e2⟩⟩
      rw [e1, ren]
      simp [sendBatch]
    · refine ⟨(buf s w).map fun m => m - readMetric s w (search (commitSlice s) w skip), (commitSlice s).len, 0, [], ?_,
        List.length_map _, .inl ⟨rfl, rfl⟩⟩
      simp only [ren, List.append_nil]
      simp
  · split
    · obtain ⟨n, bits, e1, e2, -⟩ := traceback_frame (search (commitSlice s) w skip) (commitSlice s).params.minTb
        (commitSlice s)
      refine ⟨buf s w, n, (commitSlice s).rcnt, [.batch bits], ?_, rfl, .inr ⟨bits, rfl, e2⟩⟩
      rw [e1, same]
      rfl
    · refine ⟨buf s w, (commitSlice s).len, (commitSlice s).rcnt, [], ?_, rfl, .inl ⟨rfl, rfl⟩⟩
      rw [same, List.append_nil]
      rfl

/-- The three increments, as numbers, in R33's ranges (R227: none can overflow). -/
theorem commitSlice_ranges {s : State} (hi : s.idx.toNat < s.params.cap) (hl : s.len.toNat < s.params.cap)
    (hr : s.rcnt.toNat < s.params.renormInterval) :
    (commitSlice s).idx.toNat = (s.idx.toNat + 1) % s.params.cap ∧
    (commitSlice s).len.toNat = s.len.toNat + 1 ∧ (commitSlice s).rcnt.toNat = s.rcnt.toNat + 1 := by
  have hcap : s.params.cap ≤ 65535 := s.params.legal.2.2.1
  have hri : s.params.renormInterval ≤ 2 ^ 32 - 1 := s.params.legal.2.2.2.1.2
  refine ⟨?_, ?_, ?_⟩
  · simp only [commitSlice_idx]
    split
    · rename_i h
      rw [h, Nat.mod_self]
      rfl
    · rw [BitVec.toNat_add, Nat.mod_eq_of_lt (by omega : s.idx.toNat + 1 < s.params.cap)]
      simp
      omega
  · simp only [commitSlice_len, BitVec.toNat_add]
    simp
    omega
  · simp only [commitSlice_rcnt, BitVec.toNat_add]
    simp
    omega

/-- The batch a walk hands over depends on `HIST`, `IDX`, `LEN` and the parameters only (R169). -/
theorem walkBatch_congr {s t : State} (hp : t.params = s.params) (hh : t.hist = s.hist) (hi : t.idx = s.idx)
    (hl : t.len = s.len) (best mtb : Nat) : walkBatch t best mtb = walkBatch s best mtb := by
  have pos : ∀ j, walkPosition t j = walkPosition s j := fun j => by simp only [walkPosition, hp, hi]
  have rd : ∀ p i, readEntry t p i = readEntry s p i := fun p i => by simp only [readEntry, slice, hh]
  have st : ∀ j, walkState t best j = walkState s best j := by
    intro j
    induction j with
    | zero => rfl
    | succ j ih => simp only [walkState, ih, pos, rd, hp]
  simp only [walkBatch, hl, walkBit, pos, rd, st]

/-- What a process leaves in the three counters and how many bits it emits (R172, R173). -/
theorem procskip_counts {s : State} (hi : s.idx.toNat < s.params.cap) (hl : s.len.toNat < s.params.cap)
    (hr : s.rcnt.toNat < s.params.renormInterval) (skip : Nat) (w : Bool) :
    (procskip skip w s).1.idx.toNat = (s.idx.toNat + 1) % s.params.cap ∧
    (procskip skip w s).1.len.toNat = (if s.len.toNat + 1 = s.params.cap then s.params.minTb else s.len.toNat + 1) ∧
    (procskip skip w s).1.rcnt.toNat =
      (if s.rcnt.toNat + 1 = s.params.renormInterval then 0 else s.rcnt.toNat + 1) ∧
    (procskip skip w s).2 = (if s.len.toNat + 1 = s.params.cap then s.params.tbGroup else 0) := by
  obtain ⟨ci, cl, cr⟩ := commitSlice_ranges hi hl hr
  have hcap : s.params.cap ≤ 65535 := s.params.legal.2.2.1
  have hcd : s.params.cap = s.params.minTb + s.params.tbGroup := rfl
  have tb : ∀ (best : Nat) (t : State), t.len = (commitSlice s).len → t.params = s.params →
      s.len.toNat + 1 = s.params.cap →
      (traceback best s.params.minTb t).1.len.toNat = s.params.minTb ∧
      (traceback best s.params.minTb t).2 = s.params.tbGroup := by
    intro best t ht _ hc
    obtain ⟨n, bits, e1, e2, hn, hlen⟩ := traceback_frame best s.params.minTb t
    rw [ht, cl] at hn hlen
    rw [e1, e2]
    simp only [sendBatch_len, hn, hlen, BitVec.toNat_ofNat]
    omega
  have idx_tb : ∀ best m (t : State), (traceback best m t).1.idx = t.idx := fun _ _ _ => rfl
  have rcnt_tb : ∀ best m (t : State), (traceback best m t).1.rcnt = t.rcnt := fun _ _ _ => rfl
  unfold procskip procActions
  simp only [cr, cl, commitSlice_params]
  by_cases h1 : s.rcnt.toNat + 1 = s.params.renormInterval <;>
    by_cases h2 : s.len.toNat + 1 = s.params.cap <;> simp only [h1, h2, if_true, if_false]
  · have := tb (search (commitSlice s) w skip)
      (renormalize w (search (commitSlice s) w skip) { commitSlice s with rcnt := 0 }) (by simp) (by simp) h2
    refine ⟨by simp only [idx_tb, renormalize_idx]; exact ci, this.1, ?_, this.2⟩
    simp only [rcnt_tb, renormalize_rcnt]
    rfl
  · refine ⟨by simp only [renormalize_idx]; exact ci, by simp only [renormalize_len]; exact cl, ?_, trivial⟩
    simp only [renormalize_rcnt]
    rfl
  · have := tb (search (commitSlice s) w skip) (commitSlice s) rfl rfl h2
    exact ⟨ci, this.1, cr, this.2⟩
  · exact ⟨ci, cl, cr, trivial⟩

end Sys2Proof.Machine
end

