-- ==== Sys2Proof/Tests/Slice0.lean ====
section
/-! SUPPORT. Tests. Every expected word and value is from spec/30_encoding.md R105 or a vector `V-...` of
spec/95_test_vectors.md, named in the docstring. After the tests come the witnesses: for every statement with
hypotheses, concrete values that meet them. -/

namespace Sys2Proof.Machine.Tests

/-! ## WellFormed: an ill-formed term for each check -/

theorem test_wf_refuses_operand_a_past_24_bits :
    (Instr.sysRdreg (2 ^ 24)).wf = false ∧ (Instr.pmRdc (2 ^ 24)).wf = false ∧
    (Instr.pmWrc (2 ^ 24) 0).wf = false ∧ (Instr.pmRdo (2 ^ 24)).wf = false ∧
    (Instr.pmWro (2 ^ 24) 0).wf = false ∧ (Instr.dhSlrd (2 ^ 24)).wf = false ∧
    (Instr.dhSlwr (2 ^ 24) 0).wf = false ∧ (Instr.dhSearch (2 ^ 24) false).wf = false ∧
    (Instr.dhRenorm (2 ^ 24) false).wf = false ∧ (Instr.dhTraceback (2 ^ 24) 0).wf = false ∧
    (Instr.dhProcskip (2 ^ 24) false).wf = false ∧ (Instr.bmTblwr (2 ^ 24) 0).wf = false ∧
    (Instr.bmTblrd (2 ^ 24)).wf = false ∧ (Instr.bmGetkey (2 ^ 24)).wf = false ∧
    (Instr.bmSymwr (2 ^ 24) 0).wf = false ∧ (Instr.bmSymrd (2 ^ 24)).wf = false ∧
    (Instr.bmGetdist (2 ^ 24)).wf = false ∧ (Instr.bmGetout (2 ^ 24)).wf = false := by decide

theorem test_wf_refuses_warmup_past_16_bits : (Instr.dhTraceback 0 (2 ^ 16)).wf = false := by decide

theorem test_wf_accepts_the_largest_operands :
    (Instr.pmRdc 0xFFFFFF).wf = true ∧ (Instr.dhTraceback 0xFFFFFF 0xFFFF).wf = true := by decide

/-! ## Decoding: every row of R105 -/

/-- `OP` 00000001, `A` the register number, `B` 0, written bit by bit. -/
theorem test_decode_sys :
    decode 0x000000000000 = .command .sysNop ∧
    decode 0b000000010000000000000000000101010000000000000000 = .command (.sysRdreg 0x15) := by decide

/-- `PM.WRC 3, 0xFFFF` bit by bit: `OP` 00010011, `A` 3, `B` all ones. -/
theorem test_decode_pm :
    decode 0x100000000000 = .command .pmReset ∧ decode 0x110000000000 = .command .pmSwap ∧
    decode 0x120000020000 = .command (.pmRdc 2) ∧
    decode 0b000100110000000000000000000000111111111111111111 = .command (.pmWrc 3 0xFFFF) ∧
    decode 0x14FFFFFF0000 = .command (.pmRdo 0xFFFFFF) ∧ decode 0x150000020007 = .command (.pmWro 2 7) := by decide

/-- `DH.PROCSKIP 5, W=1` bit by bit: `OP` 00100110, `A` 5, `B[15:1]` 0, `B[0]` 1. -/
theorem test_decode_dh :
    decode 0x200000000000 = .command .dhReset ∧ decode 0x210000010000 = .command (.dhSlrd 1) ∧
    decode 0x2200000000FF = .command (.dhSlwr 0 0xFF) ∧ decode 0x23FFFFFF0000 = .command (.dhSearch 0xFFFFFF false) ∧
    decode 0x240000010001 = .command (.dhRenorm 1 true) ∧ decode 0x250000010002 = .command (.dhTraceback 1 2) ∧
    decode 0b001001100000000000000000000001010000000000000001 = .command (.dhProcskip 5 true) ∧
    decode 0x270000000001 = .command (.dhProc true) ∧ decode 0x280000000000 = .command .dhFlush := by decide

/-- `BM.TBLWR 3, 1` bit by bit: `OP` 00110000, `A` 3, `B` 1. -/
theorem test_decode_bm :
    decode 0b001100000000000000000000000000110000000000000001 = .command (.bmTblwr 3 1) ∧
    decode 0x310000030000 = .command (.bmTblrd 3) ∧ decode 0x320000000000 = .command .bmBuild ∧
    decode 0x330000090000 = .command (.bmGetkey 9) ∧ decode 0x3400000100FA = .command (.bmSymwr 1 250) ∧
    decode 0x350000010000 = .command (.bmSymrd 1) ∧ decode 0x360000000000 = .command .bmFill ∧
    decode 0x370000010000 = .command (.bmGetdist 1) ∧ decode 0x380000020000 = .command (.bmGetout 2) := by decide

/-- V-FP1, V-FP2, V-PM11, V-PM12, V-DH24, V-DH28, V-FP3, V-FP7, V-SY9. -/
theorem test_decode_rejects_by_name :
    decode 0x390000000000 = .rejected .illegalOp ∧ decode 0xFFFFFFFFFFFF = .rejected .illegalOp ∧
    decode 0x110000000001 = .rejected .reserved ∧ decode 0x120000020001 = .rejected .reserved ∧
    decode 0x220000010100 = .rejected .reserved ∧ decode 0x270000010001 = .rejected .reserved ∧
    decode 0x330000090001 = .rejected .reserved ∧ decode 0x260000000002 = .rejected .reserved ∧
    decode 0x000000010000 = .rejected .reserved := by decide

/-- R113's lines and their words: `PM.WRO 2, 7`; `DH.PROCSKIP 1, W=1`; `DH.TRACEBACK 0, 5`. -/
theorem test_encode :
    encode (.pmWro 2 7) = 0x150000020007 ∧ encode (.dhProcskip 1 true) = 0x260000010001 ∧
    encode (.dhTraceback 0 5) = 0x250000000005 ∧ encode .pmSwap = 0x110000000000 := by decide

/-- No two rows of R105 share an opcode; there are 26. -/
theorem test_opcodes_distinct :
    (opcodeRows.map Prod.fst).Nodup ∧ opcodeRows.length = 26 := by decide

theorem test_table_word :
    decodeTableWord 48 0x150000020007 = some (.pmWro 2 7) ∧ decodeTableWord 48 0x390000000000 = none ∧
    decodeTableWord 48 0x110000000001 = none := by decide

/-! ## Small states: DH parameters A and BMT parameters A together -/

def paramsA : Params where
  logStates := 2
  minTb := 2
  tbGroup := 2
  renormInterval := 3
  rate := 1
  order := 3
  rstClearsRcnt := false
  legal := by decide

/-- `HIST` of V-DH9, `TBL` of V-BM5, `SYM` of V-BM10. -/
def blockA : State where
  params := paramsA
  pm0 := [1, 2, 3, 4]
  pm1 := [5, 6, 7, 8]
  sel := false
  hist := [[0, 1, 0, 1], [1, 0, 0, 1], [1, 1, 0, 0], [0, 0, 1, 1]]
  idx := 0
  len := 0
  rcnt := 0
  tbl := [0, 1, 1, 0, 1, 0, 0, 1]
  keys := [0, 0, 0, 0]
  outs := [0, 0, 0, 0, 0]
  outlen := 0
  dist := [0, 0, 0, 0, 0]
  sym := [3, 250]
  built := false
  fault := false
  fcode := 0
  input := []
  outputs := []
  resets := 0

/-- The built table of V-BM5, from the vector. -/
def builtA : State :=
  { blockA with keys := [1, 2, 2, 1], outs := [0, 2, 1, 0, 0], outlen := 3, built := true }

/-- `blockA` with the three counters of a vector. -/
def dhBlock (idx len : BitVec 16) (rcnt : BitVec 32) : State := { blockA with idx := idx, len := len, rcnt := rcnt }

/-- A faulted block (V-FP8). -/
def faultedA : State := { blockA with fault := true, fcode := 5 }

/-- The state after the one step that meets the word `w`. -/
def afterWord (w : CommandWord) (s : State) : State :=
  match step { s with input := [.cmd w] } with
  | .next t => t
  | .fault _ => s
  | .refused _ => s

/-- The response `00 r`. -/
def ok (r : BitVec 32) : Output := .response ⟨0x00, r⟩

/-- The response `st 00000000`. -/
def bad (st : BitVec 8) : Output := .response ⟨st, 0⟩

/-! ## System commands -/

/-- V-SY1, V-SY2 (with the code of V-FP8). -/
theorem test_nop :
    (afterWord 0x000000000000 blockA).outputs = [ok 0] ∧ (afterWord 0x000000000000 faultedA).outputs = [bad 0x85] := by
  decide

/-- V-SY3. -/
theorem test_rdreg_idx : (afterWord 0x010000010000 (dhBlock 3 0 0)).outputs = [ok 3] := by decide

/-- V-SY5, V-SY6, V-SY4. -/
theorem test_rdreg :
    (afterWord 0x010000100000 blockA).outputs = [ok 4] ∧ (afterWord 0x010000110000 blockA).outputs = [ok 2] ∧
    (afterWord 0x010000140000 blockA).outputs = [ok 4] ∧ (afterWord 0x010000150000 blockA).outputs = [ok 3] ∧
    (afterWord 0x010000040000 builtA).outputs = [ok 3] ∧ (afterWord 0x010000050000 builtA).outputs = [ok 1] ∧
    (afterWord 0x010000180000 builtA).outputs = [ok 5] ∧ (afterWord 0x010000060000 blockA).outputs = [bad 0x84] := by
  decide

/-! ## Path-metric store -/

/-- V-PM1. -/
theorem test_pmReset :
    (afterWord 0x100000000000 { blockA with sel := true }).pm0 = [0, 0, 0, 0] ∧
    (afterWord 0x100000000000 { blockA with sel := true }).pm1 = [0, 0, 0, 0] ∧
    (afterWord 0x100000000000 { blockA with sel := true }).sel = false := by decide

/-- V-PM5, V-PM11. -/
theorem test_pmSwap :
    (afterWord 0x110000000000 blockA).sel = true ∧ (afterWord 0x110000000000 blockA).pm1 = [5, 6, 7, 8] ∧
    (afterWord 0x110000000001 blockA).outputs = [bad 0x82] ∧ (afterWord 0x110000000001 blockA).sel = false := by decide

/-- V-PM8 and V-PM9 (last legal index, first illegal one). -/
theorem test_pmRdc :
    (afterWord 0x120000030000 { blockA with pm0 := [5, 2, 7, 9] }).outputs = [ok 9] ∧
    (afterWord 0x120000040000 blockA).outputs = [bad 0x84] ∧ (afterWord 0x120000040000 blockA).fcode = 4 := by decide

/-- V-PM7. -/
theorem test_pmWrc : (afterWord 0x13000003FFFF blockA).pm0 = [1, 2, 3, 0xFFFF] := by decide

/-- V-PM13. -/
theorem test_pmRdo : (afterWord 0x140000000000 { blockA with sel := true }).outputs = [ok 1] := by decide

/-- V-PM2, V-PM10. -/
theorem test_pmWro :
    (afterWord 0x150000020007 blockA).pm1 = [5, 6, 7, 8] ∧ (afterWord 0x150000020007 blockA).pm0 = [1, 2, 3, 4] ∧
    (afterWord 0x15000001FFFE blockA).pm1 = [5, 0xFFFE, 7, 8] ∧
    (afterWord 0x150000040001 blockA).outputs = [bad 0x84] ∧ (afterWord 0x150000040001 blockA).pm1 = [5, 6, 7, 8] := by
  decide

/-! ## Decision history -/

/-- V-DH21, both values of `RST_CLEARS_RCNT`. -/
theorem test_dhReset :
    (afterWord 0x200000000000 (dhBlock 3 2 1)).rcnt = 1 ∧ (afterWord 0x200000000000 (dhBlock 3 2 1)).len = 0 ∧
    (afterWord 0x200000000000 (dhBlock 3 2 1)).idx = 0 ∧
    (afterWord 0x200000000000
      { dhBlock 3 2 1 with params := { paramsA with rstClearsRcnt := true } }).rcnt = 0 := by decide

/-- R152: the slice at `IDX`, here the third of V-DH9. -/
theorem test_dhSlrd :
    (afterWord 0x210000010000 (dhBlock 2 0 0)).outputs = [ok 1] ∧
    (afterWord 0x210000020000 (dhBlock 2 0 0)).outputs = [ok 0] := by decide

/-- V-DH22, V-DH23, V-DH24. -/
theorem test_dhSlwr :
    (afterWord 0x2200000000FF blockA).hist = [[0xFF, 1, 0, 1], [1, 0, 0, 1], [1, 1, 0, 0], [0, 0, 1, 1]] ∧
    (afterWord 0x220000020001 (dhBlock 3 0 0)).hist = [[0, 1, 0, 1], [1, 0, 0, 1], [1, 1, 0, 0], [0, 0, 1, 1]] ∧
    (afterWord 0x220000010100 blockA).outputs = [bad 0x82] := by decide

/-- V-DH2, V-DH5 (the tie; the unsigned compare). -/
theorem test_dhSearch_ties_and_sign :
    (afterWord 0x230000010000 { blockA with pm0 := [9, 3, 3, 8] }).outputs = [ok 1] ∧
    (afterWord 0x230000010000 { blockA with pm0 := [0x8000, 0x7FFF, 0xFFFF, 0x8001] }).outputs = [ok 1] ∧
    (afterWord 0x230000010000 { blockA with pm0 := [0xFFFF, 0xFFFF, 0xFFFF, 0xFFFF] }).outputs = [ok 0] := by decide

/-- V-DH4, V-DH26. -/
theorem test_dhSearch_strides :
    (afterWord 0x230000020000 { blockA with pm0 := [9, 3, 3, 8] }).outputs = [ok 2] ∧
    (afterWord 0x230000030000 { blockA with pm0 := [9, 3, 3, 8] }).outputs = [ok 3] ∧
    (afterWord 0x230000040000 { blockA with pm0 := [9, 3, 3, 8] }).outputs = [ok 0] ∧
    (afterWord 0x23FFFFFF0000 { blockA with pm0 := [9, 3, 3, 8] }).outputs = [ok 0] ∧
    (afterWord 0x230000000000 blockA).outputs = [bad 0x85] := by decide

/-- V-DH6, V-DH7, V-DH27. -/
theorem test_dhRenorm :
    (afterWord 0x240000010001 { blockA with pm1 := [6, 3, 3, 8] }).pm1 = [3, 0, 0, 5] ∧
    (afterWord 0x240000010001 { blockA with pm1 := [2, 5, 0xFFFF, 0] }).pm1 = [0xFFFD, 0, 0xFFFA, 0xFFFB] ∧
    (afterWord 0x240000010001 blockA).pm0 = [1, 2, 3, 4] ∧
    (afterWord 0x240000040000 blockA).outputs = [bad 0x84] := by decide

/-- V-DH9, V-DH11. -/
theorem test_dhTraceback :
    (afterWord 0x250000010002 (dhBlock 0 4 0)).outputs = [.batch [false, false], ok 2] ∧
    (afterWord 0x250000010002 (dhBlock 0 4 0)).len = 2 ∧
    (afterWord 0x250000010003 (dhBlock 0 2 0)).outputs = [bad 0x87] := by decide

/-- V-DH12, V-DH13 (the decision-entry reading; any byte but 0 is set). -/
theorem test_dhTraceback_entries :
    (afterWord 0x250000030000
      { dhBlock 1 1 0 with hist := [[0, 0, 0, 0], [0, 0, 0, 0], [0, 0, 0, 0], [0, 0, 0, 0]] }).outputs =
      [.batch [false], ok 1] ∧
    (afterWord 0x250000000000
      { dhBlock 1 1 0 with hist := [[0x80, 0, 0, 0], [0, 0, 0, 0], [0, 0, 0, 0], [0, 0, 0, 0]] }).outputs =
      [.batch [true], ok 1] := by decide

/-- V-DH15 (action (d)), V-DH25. -/
theorem test_dhProcskip_traces_back :
    (afterWord 0x260000010001 { dhBlock 3 3 0 with pm1 := [12, 5, 6, 7] }).outputs = [.batch [false, false], ok 2] ∧
    (afterWord 0x260000010001 { dhBlock 3 3 0 with pm1 := [12, 5, 6, 7] }).idx = 0 ∧
    (afterWord 0x260000010001 { dhBlock 3 3 0 with pm1 := [12, 5, 6, 7] }).len = 2 ∧
    (afterWord 0x260000010001 { dhBlock 3 3 0 with pm1 := [12, 5, 6, 7] }).rcnt = 1 ∧
    (afterWord 0x260000000001 (dhBlock 2 1 1)).outputs = [bad 0x85] ∧
    (afterWord 0x260000000001 (dhBlock 2 1 1)).len = 1 := by decide

/-- V-DH19 (action (c)). -/
theorem test_dhProcskip_renormalizes_and_traces_back :
    let s := { dhBlock 1 3 2 with
      sel := true, pm0 := [3, 14, 15, 16],
      hist := [[1, 0, 1, 0], [0, 1, 1, 0], [1, 1, 0, 0], [0, 0, 1, 1]] }
    (afterWord 0x260000010001 s).outputs = [.batch [false, true], ok 2] ∧
    (afterWord 0x260000010001 s).pm0 = [0, 11, 12, 13] ∧ (afterWord 0x260000010001 s).len = 2 ∧
    (afterWord 0x260000010001 s).rcnt = 0 := by decide

/-- V-DH16. -/
theorem test_dhProc :
    (afterWord 0x270000000001 { dhBlock 3 3 0 with pm1 := [12, 5, 6, 7] }).outputs = [.batch [false, false], ok 2] := by
  decide

/-- V-DH17, with the stream `1, 0`. -/
theorem test_dhFlush :
    let s := { dhBlock 2 2 0 with hist := [[1, 0, 1, 0], [0, 1, 1, 0], [0, 0, 0, 0], [0, 0, 0, 0]] }
    (afterWord 0x280000000000 s).outputs = [.batch [false, true], ok 2] ∧
    (afterWord 0x280000000000 s).out = [true, false] ∧ (afterWord 0x280000000000 s).len = 0 ∧
    (afterWord 0x280000000000 s).idx = 2 := by decide

/-! ## Branch-metric table -/

/-- V-BM1 (on another entry), V-BM3, V-BM4, V-FP5. -/
theorem test_bmTblwr :
    (afterWord 0x300000030001 blockA).tbl = [0, 1, 1, 1, 1, 0, 0, 1] ∧
    (afterWord 0x300000030002 blockA).outputs = [bad 0x86] ∧
    (afterWord 0x300000080000 blockA).outputs = [bad 0x84] ∧
    (afterWord 0x300000080002 blockA).outputs = [bad 0x84] := by decide

theorem test_bmTblrd :
    (afterWord 0x310000030000 (afterWord 0x300000030001 blockA)).outputs.getLast? = some (ok 1) := by decide

/-- V-BM5. -/
theorem test_bmBuild :
    (afterWord 0x320000000000 blockA).keys = [1, 2, 2, 1] ∧
    (afterWord 0x320000000000 blockA).outs = [0, 2, 1, 0, 0] ∧ (afterWord 0x320000000000 blockA).outlen = 3 ∧
    (afterWord 0x320000000000 blockA).outputs = [ok 3] := by decide

/-- V-BM6: the all-zero pair gets a real slot. -/
theorem test_bmBuild_zero_pair :
    (afterWord 0x320000000000 { blockA with tbl := [0, 0, 1, 1, 0, 0, 1, 0] }).keys = [1, 2, 1, 3] ∧
    (afterWord 0x320000000000 { blockA with tbl := [0, 0, 1, 1, 0, 0, 1, 0] }).outs = [0, 0, 3, 1, 0] := by decide

/-- V-BM13, V-BM19, V-FP4. -/
theorem test_bmGetkey :
    (afterWord 0x330000020000 builtA).outputs = [ok 2] ∧ (afterWord 0x330000040000 builtA).outputs = [bad 0x84] ∧
    (afterWord 0x330000090000 blockA).outputs = [bad 0x83] := by decide

/-- V-BM20 (with 251, so that the write is seen), V-BM21. -/
theorem test_bmSymwr :
    (afterWord 0x3400000100FB blockA).sym = [3, 251] ∧ (afterWord 0x340000020000 blockA).outputs = [bad 0x84] := by
  decide

/-- V-BM20. -/
theorem test_bmSymrd : (afterWord 0x350000010000 blockA).outputs = [ok 0xFA] := by decide

/-- V-BM10. -/
theorem test_bmFill : (afterWord 0x360000000000 builtA).dist = [0, 0x00FA0003, 0x000300FA, 0, 0] := by decide

/-- V-BM14. -/
theorem test_bmGetdist :
    let s := { builtA with dist := [0, 0x00FA0003, 0x000300FA, 0, 0] }
    (afterWord 0x370000010000 s).outputs = [ok 0x00FA0003] ∧ (afterWord 0x370000000000 s).outputs = [ok 0] ∧
    (afterWord 0x370000030000 s).outputs = [bad 0x84] := by decide

/-- V-BM15. -/
theorem test_bmGetout :
    (afterWord 0x380000010000 builtA).outputs = [ok 2] ∧ (afterWord 0x380000020000 builtA).outputs = [ok 1] ∧
    (afterWord 0x380000000000 builtA).outputs = [ok 0] := by decide

/-! ## Faults, hard reset, and the host's two entries -/

/-- V-FP1, V-FP2, V-FP6, V-FP7. -/
theorem test_priority :
    (afterWord 0x390000000000 blockA).outputs = [bad 0x81] ∧ (afterWord 0xFFFFFFFFFFFF blockA).outputs = [bad 0x81] ∧
    (afterWord 0x250000040009 blockA).outputs = [bad 0x84] ∧ (afterWord 0x260000000002 blockA).outputs = [bad 0x82] := by
  decide

/-- V-FP8, V-FP9, V-FP10. -/
theorem test_sticky :
    (afterWord 0x120000040000 faultedA).outputs = [bad 0x85] ∧ (afterWord 0xFF0000000000 faultedA).outputs = [bad 0x85] ∧
    (afterWord 0x100000000000 faultedA).outputs = [bad 0x85] ∧ (afterWord 0x100000000000 faultedA).pm0 = [1, 2, 3, 4] := by
  decide

/-- V-RS1, on what the spec fixes. -/
theorem test_hardReset :
    (hardReset faultedA).fault = false ∧ (hardReset faultedA).fcode = 0 ∧ (hardReset faultedA).pm1 = [0, 0, 0, 0] ∧
    (hardReset faultedA).params = paramsA := by decide

/-- V-RS3: the same free value both times. -/
theorem test_reset_history_is_one_value :
    (afterWord 0x210000000000 State.reset).outputs = [ok ((Config.resetHist Params.scenario 0 0 0).setWidth 32)] := rfl

/-- `withFetchWord` presents the word: the next step runs it, from reset too. -/
theorem test_withFetchWord :
    step (State.reset.withFetchWord 48 0x150000020007) = exec (.pmWro 2 7) State.reset := rfl

/-! ## Witnesses -/

theorem blockA_counters_inv (idx len : BitVec 16) (rcnt : BitVec 32) (hi : idx.toNat < 4) (hl : len.toNat < 4)
    (hr : rcnt.toNat < 3) : Inv (dhBlock idx len rcnt) where
  memory := by rfl
  idx_lt := hi
  len_lt := hl
  rcnt_lt := hr
  unbuilt := fun _ => rfl
  table := fun h => by cases h
  no_fault := fun _ => rfl
  fault_code := fun h => by cases h

theorem blockA_inv : Inv blockA := blockA_counters_inv 0 0 0 (by decide) (by decide) (by decide)

theorem builtA_inv : Inv builtA where
  memory := by decide
  idx_lt := by decide
  len_lt := by decide
  rcnt_lt := by decide
  unbuilt := fun h => by cases h
  table := fun _ => (show builtA = buildTable blockA by decide) ▸ tableInv_buildTable (by decide)
  no_fault := fun _ => rfl
  fault_code := fun h => by cases h

theorem faultedA_inv : Inv faultedA where
  memory := by decide
  idx_lt := by decide
  len_lt := by decide
  rcnt_lt := by decide
  unbuilt := fun _ => rfl
  table := fun h => by cases h
  no_fault := fun h => by cases h
  fault_code := fun _ => by decide

/-- The largest operands. -/
theorem witness_DecodeOfEncodeIsCommand :
    (Instr.pmWro 0xFFFFFF 0xFFFF).wf = true ∧ (Instr.dhTraceback 0xFFFFFF 0xFFFF).wf = true ∧
    (Instr.dhSlwr 0xFFFFFF 0xFF).wf = true ∧ Instr.sysNop.wf = true := by decide

theorem witness_EncodeOfDecodeIsWord :
    decode 0x15FFFFFFFFFF = .command (.pmWro 0xFFFFFF 0xFFFF) ∧ decode 0x270000000001 = .command (.dhProc true) := by
  decide

theorem witness_StepRunsDecodedCommand :
    ({ blockA with input := [.cmd 0x150000020007, .rst] } : State).input = .cmd 0x150000020007 :: [.rst] ∧
    decode 0x150000020007 = .command (.pmWro 2 7) := ⟨rfl, by decide⟩

/-- The opcodes next to the legal ones. -/
theorem witness_UnknownOpcodeFaults :
    ({ blockA with input := [.cmd 0x390000000001] } : State).input = [.cmd 0x390000000001] ∧ blockA.fault = false ∧
    (∀ m, (opField 0x390000000001, m) ∉ opcodeRows) ∧ (∀ m, (opField 0x020000000000, m) ∉ opcodeRows) ∧
    (∀ m, (opField 0x16FFFFFFFFFF, m) ∉ opcodeRows) ∧ (∀ m, (opField 0x290000000000, m) ∉ opcodeRows) := by
  have absent : ∀ op : BitVec 8, op ∉ opcodeRows.map Prod.fst → ∀ m, (op, m) ∉ opcodeRows := fun op h m hm =>
    h (List.mem_map.mpr ⟨_, hm, rfl⟩)
  exact ⟨rfl, rfl, absent _ (by decide), absent _ (by decide), absent _ (by decide), absent _ (by decide)⟩

/-- The lowest and the highest reserved bit. -/
theorem witness_ReservedBitFaults :
    blockA.fault = false ∧
    (opField 0x100000000001, (0x00FFFFFFFFFF : CommandWord)) ∈ opcodeRows ∧
    (0x100000000001 : CommandWord) &&& 0x00FFFFFFFFFF ≠ 0 ∧
    (opField 0x278000000001, (0x00FFFFFFFFFE : CommandWord)) ∈ opcodeRows ∧
    (0x278000000001 : CommandWord) &&& 0x00FFFFFFFFFE ≠ 0 ∧
    (opField 0x220000000100, (0x00000000FF00 : CommandWord)) ∈ opcodeRows ∧
    (0x220000000100 : CommandWord) &&& 0x00000000FF00 ≠ 0 := by decide

theorem witness_CleanWordIsCommand :
    (opField 0x2200000000FF, (0x00000000FF00 : CommandWord)) ∈ opcodeRows ∧
    (0x2200000000FF : CommandWord) &&& 0x00000000FF00 = 0 ∧
    (opField 0x15FFFFFFFFFF, (0 : CommandWord)) ∈ opcodeRows ∧ (0x15FFFFFFFFFF : CommandWord) &&& 0 = 0 := by decide

theorem witness_HardResetClearsBlock :
    ({ faultedA with input := [.rst, .cmd 0] } : State).input = .rst :: [.cmd 0] := rfl

theorem witness_WaitingHoldsState : builtA.input = [] := rfl

theorem witness_StepKeepsParametersAndOrder :
    ∃ t, step { blockA with input := [.rst] } = .next t := ⟨_, rfl⟩

/-- A word that completes, and one that is refused. -/
theorem witness_OneResponsePerWord :
    (∃ t, step { dhBlock 0 4 0 with input := [.cmd 0x250000010002] } = .next t ∧ t.fault = false) ∧
    ∃ t, step { blockA with input := [.cmd 0x120000040000] } = .next t ∧ t.fault = true :=
  ⟨⟨_, rfl, by decide⟩, ⟨_, rfl, by decide⟩⟩

theorem witness_StatusByteIsZeroOrFault :
    Inv { faultedA with input := [.cmd 0x120000040000] } ∧
    ∃ t, step { faultedA with input := [.cmd 0x120000040000] } = .next t ∧
      t.outputs.getLast? = some (.response ⟨0x85, 0⟩) :=
  ⟨⟨by decide, by decide, by decide, by decide, fun _ => rfl, fun h => (by cases h), fun h => (by cases h),
    fun _ => by decide⟩, _, rfl, by decide⟩

theorem witness_FaultedBlockRefusesAll :
    faultedA.fault = true ∧ ({ faultedA with input := [.cmd 0xFF0000000000] } : State).input = [.cmd 0xFF0000000000] ∧
    ∃ t, step { faultedA with input := [.rst] } = .next t ∧ t.fault = false := ⟨rfl, rfl, _, rfl, rfl⟩

theorem witness_FaultsArePrecise :
    blockA.fault = false ∧ ∃ t, step { blockA with input := [.cmd 0x260000000001] } = .next t ∧ t.fault = true :=
  ⟨rfl, _, rfl, by decide⟩

/-- Each clause, at the first index out of range. -/
theorem witness_EarlierCheckWins :
    blockA.fault = false ∧ blockA.built = false ∧ 2 ^ blockA.params.order ≤ 8 ∧ blockA.params.numStates ≤ 4 := by decide

theorem witness_NopOnlyAnswers : blockA.fault = false ∧ faultedA.fault = true := ⟨rfl, rfl⟩

/-- A register of each end of the map, and the first number that is none. -/
theorem witness_RegisterReadAnswersTable :
    blockA.fault = false ∧ (0x00, 0) ∈ registerTable blockA ∧ (0x19, 0) ∈ registerTable blockA ∧
    (∀ v, (0x06, v) ∉ registerTable blockA) ∧ ∀ v, (0x1A, v) ∉ registerTable blockA := by
  have absent : ∀ r, r ∉ (registerTable blockA).map Prod.fst → ∀ v, (r, v) ∉ registerTable blockA := fun r h v hv =>
    h (List.mem_map.mpr ⟨_, hv, rfl⟩)
  exact ⟨rfl, by decide, by decide, absent _ (by decide), absent _ (by decide)⟩

theorem witness_MetricResetZeroesBothBuffers : ({ blockA with sel := true } : State).fault = false := rfl

theorem witness_SwapTogglesSelectOnly : ({ blockA with sel := true } : State).fault = false := rfl

/-- The last index in range and the first out of it; a `PM.RESET` and a hard reset. -/
theorem witness_MetricReadsAnswerBuffers :
    blockA.fault = false ∧ 3 < blockA.params.numStates ∧ blockA.params.numStates ≤ 4 ∧
    (∃ z, exec .pmReset blockA = .next z) ∧ ∃ z, step { blockA with input := [.rst] } = .next z :=
  ⟨rfl, by decide, by decide, ⟨_, rfl⟩, ⟨_, rfl⟩⟩

theorem witness_MetricWritesStoreOneMetric :
    blockA.fault = false ∧ Memory.wf blockA = true ∧ 3 < blockA.params.numStates ∧ blockA.params.numStates ≤ 4 := by
  decide

theorem witness_DoubleBufferIsolation :
    blockA.fault = false ∧ Memory.wf blockA = true ∧ 3 < blockA.params.numStates := by decide

theorem witness_HistoryResetEmptiesHistory : (dhBlock 3 3 2).fault = false := rfl

theorem witness_SliceReadAnswersEntry :
    (dhBlock 3 0 0).fault = false ∧ 3 < (dhBlock 3 0 0).params.numStates ∧ (dhBlock 3 0 0).params.numStates ≤ 4 := by
  decide

theorem witness_SliceWriteStoresOneEntry :
    (dhBlock 3 0 0).fault = false ∧ Memory.wf (dhBlock 3 0 0) = true ∧
    (dhBlock 3 0 0).idx.toNat < (dhBlock 3 0 0).params.cap ∧ 3 < (dhBlock 3 0 0).params.numStates ∧
    (dhBlock 3 0 0).params.numStates ≤ 4 := by decide

/-- Strides 1 and 0; a candidate below the best one. -/
theorem witness_SearchAnswersLowestBest :
    blockA.fault = false ∧ 1 ≤ 1 ∧ 1 ∣ 3 ∧ 3 < blockA.params.numStates ∧
    search { blockA with pm0 := [9, 3, 3, 8] } false 1 = 1 ∧ 1 ∣ 0 ∧ 0 < 1 := by decide

theorem witness_SearchAllOnesAnswersZero :
    ∀ c, 2 ∣ c → c < blockA.params.numStates →
      readMetric { blockA with pm0 := [0xFFFF, 1, 0xFFFF, 2] } false c = 0xFFFF := by
  intro c h1 h2
  have : c < 4 := h2
  obtain rfl | rfl : c = 0 ∨ c = 2 := by omega
  · decide
  · decide

theorem witness_RenormalizeSubtractsFromBuffer :
    blockA.fault = false ∧ Memory.wf blockA = true ∧ 3 < blockA.params.numStates ∧ blockA.params.numStates ≤ 4 := by
  decide

theorem witness_RenormalizeKeepsDifferences :
    blockA.fault = false ∧ Memory.wf blockA = true ∧ 3 < blockA.params.numStates ∧ 0 < blockA.params.numStates ∧
    ∃ t, exec (.dhRenorm 3 true) blockA = .next t := ⟨by decide, by decide, by decide, by decide, _, rfl⟩

/-- A full history (`LEN = CAP`), with no warm-up and with all of it warm-up; a warm-up one too long. -/
theorem witness_TracebackEmitsWalk :
    (dhBlock 3 4 0).fault = false ∧ (dhBlock 3 4 0).idx.toNat < (dhBlock 3 4 0).params.cap ∧
    (dhBlock 3 4 0).len.toNat ≤ (dhBlock 3 4 0).params.cap ∧ 3 < (dhBlock 3 4 0).params.numStates ∧
    0 ≤ (dhBlock 3 4 0).len.toNat ∧ 4 ≤ (dhBlock 3 4 0).len.toNat ∧ (dhBlock 3 4 0).params.numStates ≤ 4 ∧
    (dhBlock 3 4 0).len.toNat < 5 := by decide

/-- The last state in range; two histories that differ in the entries of states 2 and 3, but for `best = 3` in the newest
slice (slice 0), and both a full and a partial history. -/
theorem witness_WalkStaysInRange :
    3 < paramsA.numStates ∧
    (let u := { dhBlock 1 4 0 with hist := [[0, 1, 7, 1], [1, 0, 7, 7], [1, 1, 7, 7], [0, 0, 7, 7]] }
     (dhBlock 1 4 0).idx.toNat < (dhBlock 1 4 0).params.cap ∧ (dhBlock 1 4 0).len.toNat ≤ (dhBlock 1 4 0).params.cap ∧
     (∀ p, p < 4 → ∀ i, (i < max (paramsA.numStates / 2) 1 ∨ p = (1 + 4 - 1) % 4 ∧ i = 3) →
       readEntry (dhBlock 1 4 0) p i = readEntry u p i) ∧
     (∃ t, exec (.dhTraceback 3 0) (dhBlock 1 4 0) = .next t) ∧ ∃ t, exec (.dhTraceback 3 0) u = .next t) := by
  refine ⟨by decide, by decide, by decide, ?_, ⟨_, rfl⟩, ⟨_, rfl⟩⟩
  intro p hp i hi
  have low : ∀ p, p < 4 → ∀ i, i < 2 → readEntry (dhBlock 1 4 0) p i = readEntry
      { dhBlock 1 4 0 with hist := [[0, 1, 7, 1], [1, 0, 7, 7], [1, 1, 7, 7], [0, 0, 7, 7]] } p i := by decide
  rcases hi with hi | ⟨rfl, rfl⟩
  · exact low p hp i hi
  · decide

/-- Two states that differ in their metrics and their table. -/
theorem witness_TracebackIsDeterministic :
    (dhBlock 1 3 0).hist = ({ builtA with pm0 := [], idx := 1, len := 3 } : State).hist ∧
    (∃ t, exec (.dhTraceback 2 1) (dhBlock 1 3 0) = .next t) ∧
    ∃ t, exec (.dhTraceback 2 1) { builtA with pm0 := [], idx := 1, len := 3 } = .next t :=
  ⟨rfl, ⟨_, rfl⟩, ⟨_, rfl⟩⟩

/-- A stride of 0, and the four actions: `RENORM_INTERVAL = 3`, `CAP = 4`. -/
theorem witness_ProcessTakesOneOfFourActions :
    (Inv (dhBlock 0 2 1) ∧ (dhBlock 0 2 1).rcnt.toNat + 1 ≠ 3 ∧ (dhBlock 0 2 1).len.toNat + 1 < 4) ∧
    (Inv (dhBlock 3 2 2) ∧ (dhBlock 3 2 2).rcnt.toNat + 1 = 3 ∧ (dhBlock 3 2 2).len.toNat + 1 < 4) ∧
    (Inv (dhBlock 3 3 2) ∧ (dhBlock 3 3 2).rcnt.toNat + 1 = 3 ∧ (dhBlock 3 3 2).len.toNat + 1 = 4) ∧
    (Inv (dhBlock 0 3 1) ∧ (dhBlock 0 3 1).rcnt.toNat + 1 ≠ 3 ∧ (dhBlock 0 3 1).len.toNat + 1 = 4) ∧
    blockA.params.renormInterval = 3 ∧ blockA.params.cap = 4 ∧ blockA.fault = false :=
  ⟨⟨blockA_counters_inv 0 2 1 (by decide) (by decide) (by decide), by decide, by decide⟩,
    ⟨blockA_counters_inv 3 2 2 (by decide) (by decide) (by decide), by decide, by decide⟩,
    ⟨blockA_counters_inv 3 3 2 (by decide) (by decide) (by decide), by decide, by decide⟩,
    ⟨blockA_counters_inv 0 3 1 (by decide) (by decide) (by decide), by decide, by decide⟩, rfl, rfl, rfl⟩

theorem witness_ProcessCountsAndEmits :
    (dhBlock 3 3 2).fault = false ∧ Inv (dhBlock 3 3 2) ∧ Inv (dhBlock 0 0 0) ∧ 1 ≤ 0xFFFFFF :=
  ⟨rfl, blockA_counters_inv 3 3 2 (by decide) (by decide) (by decide), blockA_inv, by decide⟩

theorem witness_ProcessIsStrideOne : (dhBlock 3 3 2).fault = false := rfl

theorem witness_FlushDrainsFromZero :
    (dhBlock 3 4 0).fault = false ∧ (dhBlock 3 4 0).idx.toNat < (dhBlock 3 4 0).params.cap ∧
    (dhBlock 3 4 0).len.toNat ≤ (dhBlock 3 4 0).params.cap ∧ (dhBlock 3 0 0).len.toNat ≤ (dhBlock 3 0 0).params.cap := by
  decide

/-- A run with a write, a swap and two processes, from an empty history. -/
theorem witness_BitsAreConserved :
    Inv (dhBlock 3 0 1) ∧ (dhBlock 3 0 1).fault = false ∧ (dhBlock 3 0 1).len = 0 ∧
    (∀ i ∈ [Instr.pmWro 2 7, .dhProcskip 1 true, .pmSwap, .dhProc false], drains i = false) ∧
    ∃ t, runCommands ([Instr.pmWro 2 7, .dhProcskip 1 true, .pmSwap, .dhProc false] ++ [.dhFlush]) (dhBlock 3 0 1) =
      .next t ∧ t.fault = false :=
  ⟨blockA_counters_inv 3 0 1 (by decide) (by decide) (by decide), rfl, rfl, by decide, _, rfl, by decide⟩

/-- The largest entry and codeword in range, and the first of each out of it. -/
theorem witness_TableWriteStoresOneCodeword :
    blockA.fault = false ∧ Memory.wf blockA = true ∧ 7 < 2 ^ blockA.params.order ∧
    (1 : BitVec 16).toNat < 2 ^ blockA.params.rate ∧ 2 ^ blockA.params.order ≤ 8 ∧
    2 ^ blockA.params.rate ≤ (2 : BitVec 16).toNat := by decide

theorem witness_StagingReadsAnswerEntry :
    blockA.fault = false ∧ 7 < 2 ^ blockA.params.order ∧ 2 ^ blockA.params.order ≤ 8 ∧ 1 < 2 ^ blockA.params.rate ∧
    2 ^ blockA.params.rate ≤ 2 := by decide

theorem witness_SymbolWriteStoresOneDistance :
    blockA.fault = false ∧ Memory.wf blockA = true ∧ 1 < 2 ^ blockA.params.rate ∧ 2 ^ blockA.params.rate ≤ 2 := by decide

theorem witness_BuildAssignsSlotsInOrder : builtA.fault = false ∧ Memory.wf builtA = true := by decide

/-- With the first and last pair, and the used slots of V-BM5. -/
theorem witness_BuildLaws :
    blockA.fault = false ∧ Memory.wf blockA = true ∧ 3 < 2 ^ (blockA.params.order - 1) ∧
    ∃ t, exec .bmBuild blockA = .next t ∧ 2 < t.outlen.toNat := ⟨rfl, by decide, by decide, _, rfl, by decide⟩

/-- Two states with one `TBL`, built and not built. -/
theorem witness_BuildDependsOnTableOnly :
    blockA.params = builtA.params ∧ blockA.tbl = builtA.tbl ∧ blockA.fault = false ∧ builtA.fault = false ∧
    (∃ t, exec .bmBuild blockA = .next t) ∧ ∃ t, exec .bmBuild builtA = .next t :=
  ⟨rfl, rfl, rfl, rfl, ⟨_, rfl⟩, ⟨_, rfl⟩⟩

theorem witness_KeyLookupAnswersKey :
    builtA.fault = false ∧ builtA.built = true ∧ 3 < 2 ^ (builtA.params.order - 1) ∧ Inv builtA ∧
    blockA.fault = false ∧ blockA.built = false ∧ 2 ^ (builtA.params.order - 1) ≤ 4 :=
  ⟨rfl, rfl, by decide, builtA_inv, rfl, rfl, by decide⟩

theorem witness_SlotLookupsAnswerSlot :
    builtA.fault = false ∧ builtA.built = true ∧ 2 < builtA.outlen.toNat ∧ 0 < builtA.outlen.toNat ∧ Inv builtA ∧
    blockA.built = false ∧ builtA.outlen.toNat ≤ 3 :=
  ⟨rfl, rfl, by decide, by decide, builtA_inv, rfl, by decide⟩

theorem witness_FillPacksSymbolDistances :
    builtA.fault = false ∧ Inv builtA ∧ builtA.built = true ∧ 2 < builtA.outlen.toNat ∧ builtA.outlen.toNat ≤ 3 ∧
    blockA.fault = false ∧ Inv blockA ∧ blockA.built = false :=
  ⟨rfl, builtA_inv, rfl, by decide, by decide, rfl, blockA_inv, rfl⟩

theorem witness_BuildThenFillRoundTrip :
    blockA.fault = false ∧ Memory.wf blockA = true ∧ 3 < 2 ^ (blockA.params.order - 1) := by decide

theorem witness_TableStableBetweenBuilds :
    Instr.bmTblwr 0 1 ≠ .bmBuild ∧ (∃ t, exec (.bmTblwr 0 1) builtA = .next t) ∧
    ∃ t, exec (.bmTblwr 8 1) builtA = .next t := ⟨by decide, ⟨_, rfl⟩, _, rfl⟩

/-- A command of each class that is not listed, and one that faults. -/
theorem witness_OnlyListedCommandsWrite :
    writesMetrics .pmSwap = false ∧ writesSelect .dhFlush = false ∧ writesHistory .dhReset = false ∧
    writesIndex (.dhTraceback 0 0) = false ∧ writesLength .pmReset = false ∧
    writesCounter paramsA .dhReset = false ∧ writesTable .bmBuild = false ∧ writesKeys .bmFill = false ∧
    writesDistances (.bmSymwr 0 0) = false ∧ writesSymbols .bmFill = false ∧
    (∃ t, exec .pmSwap builtA = .next t) ∧ ∃ t, exec (.pmRdc 4) builtA = .next t :=
  ⟨rfl, rfl, rfl, rfl, rfl, rfl, rfl, rfl, rfl, rfl, ⟨_, rfl⟩, ⟨_, rfl⟩⟩

theorem witness_ReadsHaveNoSideEffect :
    onlyReads (.bmGetdist 1) = true ∧ (∃ t, exec (.bmGetdist 1) builtA = .next t) ∧ onlyReads (.pmRdc 4) = true ∧
    ∃ t, exec (.pmRdc 4) blockA = .next t := ⟨rfl, ⟨_, rfl⟩, rfl, _, rfl⟩

/-- From a built block and from a faulted one. -/
theorem witness_StepKeepsInvariant :
    Inv builtA ∧ (∃ t, step builtA = .next t) ∧ Inv faultedA ∧ ∃ t, step faultedA = .next t :=
  ⟨builtA_inv, ⟨_, rfl⟩, faultedA_inv, ⟨_, rfl⟩⟩

/-- A process that traces back, a reset of the history, a word that faults, and nothing presented. -/
theorem witness_StepConservesBits :
    (Inv { dhBlock 3 3 2 with input := [.cmd 0x270000000001] } ∧ decode 0x270000000001 = .command (.dhProc true) ∧
      ∃ t, step { dhBlock 3 3 2 with input := [.cmd 0x270000000001] } = .next t ∧ t.fault = false) ∧
    (decode 0x200000000000 = .command .dhReset ∧
      ∃ t, step { dhBlock 3 3 2 with input := [.cmd 0x200000000000] } = .next t ∧ t.fault = false) ∧
    (∃ t, step { dhBlock 3 3 2 with input := [.cmd 0x260000000001] } = .next t ∧ t.fault = true) ∧
    (Inv (dhBlock 3 3 2) ∧ (dhBlock 3 3 2).input = []) :=
  have inv := blockA_counters_inv 3 3 2 (by decide) (by decide) (by decide)
  ⟨⟨⟨by decide, inv.idx_lt, inv.len_lt, inv.rcnt_lt, fun _ => rfl, fun h => (by cases h), fun _ => rfl,
      fun h => (by cases h)⟩, by decide, _, rfl, by decide⟩,
    ⟨by decide, _, rfl, by decide⟩, ⟨_, rfl, by decide⟩, inv, rfl⟩

end Sys2Proof.Machine.Tests
end

/-! The scope statements: what a step does to the instance's parameters (R8) and to the list of inputs (R84). -/

namespace Sys2Proof.Machine

@[simp] theorem hardReset_params (s : State) : (hardReset s).params = s.params := rfl
@[simp] theorem hardReset_input (s : State) : (hardReset s).input = s.input := rfl

@[simp] theorem respondCount_params (x : State × Nat) : (respondCount x).params = x.1.params := rfl
@[simp] theorem respondCount_input (x : State × Nat) : (respondCount x).input = x.1.input := rfl

@[simp] theorem traceback_params (best mtb : Nat) (s : State) : (traceback best mtb s).1.params = s.params := rfl
@[simp] theorem traceback_input (best mtb : Nat) (s : State) : (traceback best mtb s).1.input = s.input := rfl

@[simp] theorem procskip_params (skip : Nat) (w : Bool) (s : State) : (procskip skip w s).1.params = s.params := by
  obtain ⟨l, m, c, o, h, -⟩ := procskip_frame skip w s
  simp [h]

@[simp] theorem procskip_input (skip : Nat) (w : Bool) (s : State) : (procskip skip w s).1.input = s.input := by
  obtain ⟨l, m, c, o, h, -⟩ := procskip_frame skip w s
  simp [h]

@[simp] theorem rejectWord_params (r : Reject) (s : State) : (rejectWord r s).params = s.params := by
  unfold rejectWord
  split <;> simp

@[simp] theorem rejectWord_input (r : Reject) (s : State) : (rejectWord r s).input = s.input := by
  unfold rejectWord
  split <;> simp

@[simp] theorem effect_params (i : Instr) (s : State) : (effect i s).params = s.params := by
  cases i <;> simp [effect]

@[simp] theorem effect_input (i : Instr) (s : State) : (effect i s).input = s.input := by
  cases i <;> simp [effect]

/-- No command, completed or not, changes a parameter (R8) or the inputs still to come (R84). -/
theorem exec_params_input {i : Instr} {s t : State} (h : exec i s = .next t) :
    t.params = s.params ∧ t.input = s.input := by
  rcases exec_cases h with ⟨-, rfl⟩ | ⟨-, c, -, rfl⟩ | ⟨-, -, rfl⟩
  · exact ⟨refuseFaulted_params s, refuseFaulted_input s⟩
  · exact ⟨takeFault_params c s, takeFault_input c s⟩
  · exact ⟨effect_params i s, effect_input i s⟩

/-- Settles O11, by what is presented: nothing, `RST`, or a word, which is a command or a rejection. -/
theorem stepKeepsParametersAndOrder : Obligations.StepKeepsParametersAndOrder := by
  intro s t h
  cases hi : s.input with
  | nil =>
    rw [step_idle hi] at h
    cases h
    exact ⟨rfl, hi⟩
  | cons x rest =>
    cases x with
    | rst =>
      rw [step_rst hi] at h
      cases h
      exact ⟨hardReset_params _, hardReset_input _⟩
    | cmd w =>
      rw [step_cmd hi] at h
      cases hd : decode w with
      | command i =>
        rw [hd] at h
        exact exec_params_input h
      | rejected r =>
        rw [hd] at h
        cases h
        exact ⟨rejectWord_params r _, rejectWord_input r _⟩

end Sys2Proof.Machine

/-! The state's statements (spec/10_state.md): who may write each piece of state (R23, R41), the values hard
reset leaves (R50), and the invariant (R33 to R38, R43), which hard reset establishes and every step keeps. -/

namespace Sys2Proof.Machine

/-! ## What the counting response, a traceback and a process leave unchanged -/

@[simp] theorem respondCount_pm0 (x : State × Nat) : (respondCount x).pm0 = x.1.pm0 := rfl
@[simp] theorem respondCount_pm1 (x : State × Nat) : (respondCount x).pm1 = x.1.pm1 := rfl
@[simp] theorem respondCount_sel (x : State × Nat) : (respondCount x).sel = x.1.sel := rfl
@[simp] theorem respondCount_hist (x : State × Nat) : (respondCount x).hist = x.1.hist := rfl
@[simp] theorem respondCount_idx (x : State × Nat) : (respondCount x).idx = x.1.idx := rfl
@[simp] theorem respondCount_len (x : State × Nat) : (respondCount x).len = x.1.len := rfl
@[simp] theorem respondCount_rcnt (x : State × Nat) : (respondCount x).rcnt = x.1.rcnt := rfl
@[simp] theorem respondCount_tbl (x : State × Nat) : (respondCount x).tbl = x.1.tbl := rfl
@[simp] theorem respondCount_keys (x : State × Nat) : (respondCount x).keys = x.1.keys := rfl
@[simp] theorem respondCount_outs (x : State × Nat) : (respondCount x).outs = x.1.outs := rfl
@[simp] theorem respondCount_outlen (x : State × Nat) : (respondCount x).outlen = x.1.outlen := rfl
@[simp] theorem respondCount_dist (x : State × Nat) : (respondCount x).dist = x.1.dist := rfl
@[simp] theorem respondCount_sym (x : State × Nat) : (respondCount x).sym = x.1.sym := rfl
@[simp] theorem respondCount_built (x : State × Nat) : (respondCount x).built = x.1.built := rfl
@[simp] theorem respondCount_fault (x : State × Nat) : (respondCount x).fault = x.1.fault := rfl
@[simp] theorem respondCount_fcode (x : State × Nat) : (respondCount x).fcode = x.1.fcode := rfl
@[simp] theorem respondCount_resets (x : State × Nat) : (respondCount x).resets = x.1.resets := rfl

@[simp] theorem traceback_pm0 (best mtb : Nat) (s : State) : (traceback best mtb s).1.pm0 = s.pm0 := rfl
@[simp] theorem traceback_pm1 (best mtb : Nat) (s : State) : (traceback best mtb s).1.pm1 = s.pm1 := rfl
@[simp] theorem traceback_sel (best mtb : Nat) (s : State) : (traceback best mtb s).1.sel = s.sel := rfl
@[simp] theorem traceback_hist (best mtb : Nat) (s : State) : (traceback best mtb s).1.hist = s.hist := rfl
@[simp] theorem traceback_idx (best mtb : Nat) (s : State) : (traceback best mtb s).1.idx = s.idx := rfl
@[simp] theorem traceback_rcnt (best mtb : Nat) (s : State) : (traceback best mtb s).1.rcnt = s.rcnt := rfl
@[simp] theorem traceback_tbl (best mtb : Nat) (s : State) : (traceback best mtb s).1.tbl = s.tbl := rfl
@[simp] theorem traceback_keys (best mtb : Nat) (s : State) : (traceback best mtb s).1.keys = s.keys := rfl
@[simp] theorem traceback_outs (best mtb : Nat) (s : State) : (traceback best mtb s).1.outs = s.outs := rfl
@[simp] theorem traceback_outlen (best mtb : Nat) (s : State) : (traceback best mtb s).1.outlen = s.outlen := rfl
@[simp] theorem traceback_dist (best mtb : Nat) (s : State) : (traceback best mtb s).1.dist = s.dist := rfl
@[simp] theorem traceback_sym (best mtb : Nat) (s : State) : (traceback best mtb s).1.sym = s.sym := rfl
@[simp] theorem traceback_built (best mtb : Nat) (s : State) : (traceback best mtb s).1.built = s.built := rfl
@[simp] theorem traceback_fault (best mtb : Nat) (s : State) : (traceback best mtb s).1.fault = s.fault := rfl
@[simp] theorem traceback_fcode (best mtb : Nat) (s : State) : (traceback best mtb s).1.fcode = s.fcode := rfl
@[simp] theorem traceback_resets (best mtb : Nat) (s : State) : (traceback best mtb s).1.resets = s.resets := rfl

/-- A process touches `PM`, the three counters and the record of what was sent, and nothing else (R171). -/
theorem procskip_untouched (skip : Nat) (w : Bool) (s : State) :
    { (procskip skip w s).1 with
      pm0 := s.pm0, pm1 := s.pm1, idx := s.idx, len := s.len, rcnt := s.rcnt, outputs := s.outputs } = s := by
  obtain ⟨l, m, c, o, h, -⟩ := procskip_frame skip w s
  rw [h]
  unfold setBuf setPmBuffer
  split <;> rfl

section
variable (skip : Nat) (w : Bool) (s : State)

@[simp] theorem procskip_sel : (procskip skip w s).1.sel = s.sel :=
  (congrArg State.sel (procskip_untouched skip w s) :)

@[simp] theorem procskip_hist : (procskip skip w s).1.hist = s.hist :=
  (congrArg State.hist (procskip_untouched skip w s) :)

@[simp] theorem procskip_tbl : (procskip skip w s).1.tbl = s.tbl :=
  (congrArg State.tbl (procskip_untouched skip w s) :)

@[simp] theorem procskip_keys : (procskip skip w s).1.keys = s.keys :=
  (congrArg State.keys (procskip_untouched skip w s) :)

@[simp] theorem procskip_outs : (procskip skip w s).1.outs = s.outs :=
  (congrArg State.outs (procskip_untouched skip w s) :)

@[simp] theorem procskip_outlen : (procskip skip w s).1.outlen = s.outlen :=
  (congrArg State.outlen (procskip_untouched skip w s) :)

@[simp] theorem procskip_dist : (procskip skip w s).1.dist = s.dist :=
  (congrArg State.dist (procskip_untouched skip w s) :)

@[simp] theorem procskip_sym : (procskip skip w s).1.sym = s.sym :=
  (congrArg State.sym (procskip_untouched skip w s) :)

@[simp] theorem procskip_built : (procskip skip w s).1.built = s.built :=
  (congrArg State.built (procskip_untouched skip w s) :)

@[simp] theorem procskip_fault : (procskip skip w s).1.fault = s.fault :=
  (congrArg State.fault (procskip_untouched skip w s) :)

@[simp] theorem procskip_fcode : (procskip skip w s).1.fcode = s.fcode :=
  (congrArg State.fcode (procskip_untouched skip w s) :)

@[simp] theorem procskip_resets : (procskip skip w s).1.resets = s.resets :=
  (congrArg State.resets (procskip_untouched skip w s) :)

end

/-! ## Who writes what when a command completes (R23, the column "written by") -/

section
variable {i : Instr} {s : State}

theorem effect_pm (h : writesMetrics i = false) : (effect i s).pm0 = s.pm0 ∧ (effect i s).pm1 = s.pm1 := by
  cases i with
  | pmReset | pmWrc | pmWro | dhRenorm | dhProcskip | dhProc => cases h
  | _ => simp [effect]

theorem effect_sel (h : writesSelect i = false) : (effect i s).sel = s.sel := by
  cases i with
  | pmReset | pmSwap => cases h
  | _ => simp [effect]

theorem effect_hist (h : writesHistory i = false) : (effect i s).hist = s.hist := by
  cases i with
  | dhSlwr => cases h
  | _ => simp [effect]

theorem effect_idx (h : writesIndex i = false) : (effect i s).idx = s.idx := by
  cases i with
  | dhReset | dhProcskip | dhProc => cases h
  | _ => simp [effect]

theorem effect_len (h : writesLength i = false) : (effect i s).len = s.len := by
  cases i with
  | dhReset | dhProcskip | dhProc | dhTraceback | dhFlush => cases h
  | _ => simp [effect]

theorem effect_rcnt (h : writesCounter s.params i = false) : (effect i s).rcnt = s.rcnt := by
  cases i with
  | dhProcskip | dhProc => cases h
  | dhReset =>
    have keeps : s.params.rstClearsRcnt = false := h
    simp [effect, keeps]
  | _ => simp [effect]

theorem effect_tbl (h : writesTable i = false) : (effect i s).tbl = s.tbl := by
  cases i with
  | bmTblwr => cases h
  | _ => simp [effect]

theorem effect_keys (h : writesKeys i = false) :
    (effect i s).keys = s.keys ∧ (effect i s).outs = s.outs ∧ (effect i s).outlen = s.outlen ∧
      (effect i s).built = s.built := by
  cases i with
  | bmBuild => cases h
  | _ => simp [effect]

theorem effect_dist (h : writesDistances i = false) : (effect i s).dist = s.dist := by
  cases i with
  | bmBuild | bmFill => cases h
  | _ => simp [effect]

theorem effect_sym (h : writesSymbols i = false) : (effect i s).sym = s.sym := by
  cases i with
  | bmSymwr => cases h
  | _ => simp [effect]

end

@[simp] theorem effect_fault (i : Instr) (s : State) : (effect i s).fault = s.fault := by
  cases i <;> simp [effect]

@[simp] theorem effect_fcode (i : Instr) (s : State) : (effect i s).fcode = s.fcode := by
  cases i <;> simp [effect]

@[simp] theorem effect_resets (i : Instr) (s : State) : (effect i s).resets = s.resets := by
  cases i <;> simp [effect]

/-- No command but a listed writer changes the built table, whether it completes or not. -/
theorem exec_keys {i : Instr} {s t : State} (hw : writesKeys i = false) (h : exec i s = .next t) :
    t.keys = s.keys ∧ t.outs = s.outs ∧ t.outlen = s.outlen ∧ t.built = s.built := by
  rcases exec_cases h with ⟨-, rfl⟩ | ⟨-, c, -, rfl⟩ | ⟨-, -, rfl⟩
  · simp
  · simp
  · exact effect_keys hw

/-- Settles O51: the first part is the column of R23 for `KEYS`, whose one writer is `BM.BUILD`; the second goes by how
`BM.TBLWR` ends. -/
theorem tableStableBetweenBuilds : Obligations.TableStableBetweenBuilds := by
  refine ⟨fun i s t hi h => exec_keys ?_ h, fun e c s t h => ?_⟩
  · cases i with
    | bmBuild => exact absurd rfl hi
    | _ => rfl
  · rcases exec_cases h with ⟨-, rfl⟩ | ⟨-, c', -, rfl⟩ | ⟨-, -, rfl⟩ <;> rfl

/-- Settles O52, by how the command ends: a refusal and a fault leave every listed piece, and a completed command leaves
what it is not listed for. -/
theorem onlyListedCommandsWrite : Obligations.OnlyListedCommandsWrite := by
  intro i s t h
  rcases exec_cases h with ⟨-, rfl⟩ | ⟨hf, c, -, rfl⟩ | ⟨-, -, rfl⟩
  · simp
  · simp [hf]
  · exact ⟨effect_pm, effect_sel, effect_hist, effect_idx, effect_len, effect_rcnt, effect_tbl, effect_keys,
      effect_dist, effect_sym, .inl ⟨effect_fault i s, effect_fcode i s⟩, effect_params i s, effect_input i s,
      effect_resets i s⟩

/-! ## The state after hard reset (R50) -/

theorem readMetric_afterHardReset (p : Params) (n : Nat) (w : Bool) (i : Nat) :
    readMetric (State.afterHardReset p n) w i = 0 := by
  unfold readMetric buf pmBuffer
  split <;> exact readElem_replicate _ _

/-- Settles O56: `PM` is read zero by zero, the scalars are the fields of the reset state. -/
theorem resetValues : Obligations.ResetValues := fun p n =>
  ⟨rfl, readMetric_afterHardReset p n, rfl, rfl, rfl, rfl, rfl, rfl, rfl, rfl, rfl⟩

theorem cap_pos (p : Params) : 0 < p.cap := by
  have : 1 ≤ p.tbGroup := p.legal.2.1
  unfold Params.cap
  omega

theorem renormInterval_pos (p : Params) : 0 < p.renormInterval := p.legal.2.2.2.1.1

theorem inv_afterHardReset (p : Params) (n : Nat) : Inv (State.afterHardReset p n) where
  memory := memory_wf_afterHardReset p n
  idx_lt := cap_pos p
  len_lt := cap_pos p
  rcnt_lt := renormInterval_pos p
  unbuilt _ := rfl
  table := nofun
  no_fault _ := rfl
  fault_code := nofun

/-- Settles O55: `State.reset` is the hard reset of one set of parameters. -/
theorem hardResetMeetsInvariant : Obligations.HardResetMeetsInvariant :=
  ⟨inv_afterHardReset, inv_afterHardReset Params.scenario 0⟩

/-! ## The invariant and the parts of the state it speaks of -/

/-- The built table's laws depend on the parameters and the four pieces of the table only. -/
theorem tableInv_congr {s t : State} (h : TableInv s) (hp : t.params = s.params) (hk : t.keys = s.keys)
    (ho : t.outs = s.outs) (hl : t.outlen = s.outlen) (hd : t.dist = s.dist) : TableInv t := by
  obtain ⟨outlen_range, keys_range, sentinel, distinct, unused⟩ := h
  constructor <;> simpa only [hp, hk, ho, hl, hd]

/-- The invariant says nothing of the inputs still to come and of what was sent. -/
theorem inv_withPorts {s : State} (h : Inv s) (input : List Input) (outputs : List Output) :
    Inv { s with input := input, outputs := outputs } :=
  ⟨h.memory, h.idx_lt, h.len_lt, h.rcnt_lt, h.unbuilt,
    fun hb => tableInv_congr (h.table hb) rfl rfl rfl rfl rfl, h.no_fault, h.fault_code⟩

/-- The seven codes of R231. -/
theorem code_range (c : Cause) : 1 ≤ c.code.toNat ∧ c.code.toNat ≤ 7 := by
  cases c <;> decide

theorem inv_refuseFaulted {s : State} (h : Inv s) : Inv (refuseFaulted s) := inv_withPorts h s.input _

theorem inv_takeFault {s : State} (h : Inv s) (c : Cause) : Inv (takeFault c s) :=
  ⟨h.memory, h.idx_lt, h.len_lt, h.rcnt_lt, h.unbuilt,
    fun hb => tableInv_congr (h.table hb) rfl rfl rfl rfl rfl, nofun, fun _ => code_range c⟩

theorem inv_rejectWord {s : State} (h : Inv s) (r : Reject) : Inv (rejectWord r s) := by
  unfold rejectWord
  split
  · exact inv_refuseFaulted h
  · exact inv_takeFault h _

/-! ## A completed command keeps the invariant, part by part -/

/-- A codeword that passes the check of `BM.TBLWR` fits its element of `TBL` (R191, R34). -/
theorem codeword_fits {s : State} {e : Nat} {c : BitVec 16} (h : violation (.bmTblwr e c) s = none) :
    (c.setWidth 8).toNat < s.params.numSymbols := by
  rcases Nat.lt_or_ge c.toNat s.params.numSymbols with hc | hc
  · rw [BitVec.toNat_setWidth]
    exact Nat.lt_of_le_of_lt (Nat.mod_le _ _) hc
  · rw [violation, checkCodeword_bad hc] at h
    cases hi : checkIndex e s.params.tblSize <;> simp [hi] at h

theorem memory_wf_procskip {s : State} (h : Memory.wf s = true) (skip : Nat) (w : Bool) :
    Memory.wf (procskip skip w s).1 = true := by
  obtain ⟨l, m, c, o, e, hl, -⟩ := procskip_frame skip w s
  rw [e]
  exact memory_wf_setBuf h (hl.trans (length_buf h w))

theorem memory_wf_effect {i : Instr} {s : State} (h : Memory.wf s = true) (hv : violation i s = none) :
    Memory.wf (effect i s) = true := by
  cases i with
  | pmReset => exact memory_wf_resetMetrics h
  | pmWrc st m => exact memory_wf_writeMetric h false st m
  | pmWro st m => exact memory_wf_writeMetric h true st m
  | dhSlwr st v => exact memory_wf_writeEntry h _ st v
  | dhRenorm ms w => exact memory_wf_renormalize h w ms
  | dhProcskip skip w => exact memory_wf_procskip h skip w
  | dhProc w => exact memory_wf_procskip h 1 w
  | bmTblwr e c => exact memory_wf_writeTable h e (codeword_fits hv)
  | bmBuild => exact memory_wf_buildTable (s := s) h
  | bmSymwr sy d => exact memory_wf_writeSymbol h sy d
  | bmFill => exact memory_wf_fillDistances h
  | _ => exact h

theorem len_traceback_le (best mtb : Nat) (s : State) : (traceback best mtb s).1.len.toNat ≤ s.len.toNat := by
  obtain ⟨n, bits, e, -, hn, -⟩ := traceback_frame best mtb s
  rw [e, sendBatch_len, hn, BitVec.toNat_ofNat]
  exact (Nat.mod_le _ _).trans (Nat.sub_le _ _)

/-- R33 over a process: each counter that reaches its bound wraps or is drained. -/
theorem procskip_ranges {s : State} (h : Inv s) (skip : Nat) (w : Bool) :
    (procskip skip w s).1.idx.toNat < s.params.cap ∧ (procskip skip w s).1.len.toNat < s.params.cap ∧
      (procskip skip w s).1.rcnt.toNat < s.params.renormInterval := by
  obtain ⟨hi, hl, hr, -⟩ := procskip_counts h.idx_lt h.len_lt h.rcnt_lt skip w
  rw [hi, hl, hr]
  have := h.len_lt
  have := h.rcnt_lt
  have : s.params.cap = s.params.minTb + s.params.tbGroup := rfl
  have : 1 ≤ s.params.tbGroup := s.params.legal.2.1
  have := renormInterval_pos s.params
  exact ⟨Nat.mod_lt _ (cap_pos _), by split <;> omega, by split <;> omega⟩

/-- R33 over a completed command: only the history's resets, tracebacks and processes move a counter. -/
theorem effect_ranges {s : State} (h : Inv s) (i : Instr) :
    (effect i s).idx.toNat < s.params.cap ∧ (effect i s).len.toNat < s.params.cap ∧
      (effect i s).rcnt.toNat < s.params.renormInterval := by
  have drained : ∀ best mtb, (traceback best mtb s).1.len.toNat < s.params.cap := fun best mtb =>
    Nat.lt_of_le_of_lt (len_traceback_le best mtb s) h.len_lt
  cases i with
  | dhReset =>
    refine ⟨cap_pos _, cap_pos _, ?_⟩
    simp only [effect, respond_rcnt, resetHistory_rcnt]
    split
    · exact renormInterval_pos _
    · exact h.rcnt_lt
  | dhTraceback best mtb => exact ⟨h.idx_lt, drained best mtb, h.rcnt_lt⟩
  | dhFlush => exact ⟨h.idx_lt, drained 0 0, h.rcnt_lt⟩
  | dhProcskip skip w => exact procskip_ranges h skip w
  | dhProc w => exact procskip_ranges h 1 w
  | _ =>
    rw [effect_idx rfl, effect_len rfl, effect_rcnt rfl]
    exact ⟨h.idx_lt, h.len_lt, h.rcnt_lt⟩

/-- R35 to R38 over a completed command: `BM.BUILD` makes the table, `BM.FILL` fills it, the others leave it. -/
theorem effect_table {s : State} (h : Inv s) (i : Instr) (hb : (effect i s).built = true) : TableInv (effect i s) := by
  have kept (hk : writesKeys i = false) (hd : writesDistances i = false) : TableInv (effect i s) := by
    obtain ⟨ek, eo, el, eb⟩ := effect_keys (s := s) hk
    exact tableInv_congr (h.table (eb ▸ hb)) (effect_params i s) ek eo el (effect_dist hd)
  cases i with
  | bmBuild => exact tableInv_congr (tableInv_buildTable h.memory) rfl rfl rfl rfl rfl
  | bmFill => exact tableInv_congr (tableInv_fillDistances (h.table hb)) rfl rfl rfl rfl rfl
  | _ => exact kept rfl rfl

/-- R37 over a completed command: `OUTLEN` stays 0 until the first build. -/
theorem effect_unbuilt {s : State} (h : Inv s) (i : Instr) (hb : (effect i s).built = false) :
    (effect i s).outlen = 0 := by
  have kept (hk : writesKeys i = false) : (effect i s).outlen = 0 := by
    obtain ⟨-, -, el, eb⟩ := effect_keys (s := s) hk
    exact el.trans (h.unbuilt (eb ▸ hb))
  cases i with
  | bmBuild => cases hb
  | _ => exact kept rfl

theorem inv_effect {i : Instr} {s : State} (h : Inv s) (hv : violation i s = none) : Inv (effect i s) := by
  obtain ⟨hi, hl, hr⟩ := effect_ranges h i
  rw [← effect_params i s] at hi hl hr
  exact ⟨memory_wf_effect h.memory hv, hi, hl, hr, effect_unbuilt h i, effect_table h i,
    by simpa using h.no_fault, by simpa using h.fault_code⟩

/-- However a command ends, the invariant holds after it. -/
theorem inv_exec {i : Instr} {s t : State} (h : Inv s) (he : exec i s = .next t) : Inv t := by
  rcases exec_cases he with ⟨-, rfl⟩ | ⟨-, c, -, rfl⟩ | ⟨-, hv, rfl⟩
  · exact inv_refuseFaulted h
  · exact inv_takeFault h c
  · exact inv_effect h hv

/-- Settles O54, by what is presented: nothing, `RST`, or a word, which is a command or a rejection. -/
theorem stepKeepsInvariant : Obligations.StepKeepsInvariant := by
  intro s t h hs
  cases hi : s.input with
  | nil =>
    rw [step_idle hi] at hs
    cases hs
    exact h
  | cons x rest =>
    have taken : Inv { s with input := rest } := inv_withPorts h rest s.outputs
    cases x with
    | rst =>
      rw [step_rst hi] at hs
      cases hs
      exact inv_withPorts (inv_afterHardReset s.params (s.resets + 1)) rest []
    | cmd w =>
      rw [step_cmd hi] at hs
      cases hd : decode w with
      | command i =>
        rw [hd] at hs
        exact inv_exec taken hs
      | rejected r =>
        rw [hd] at hs
        cases hs
        exact inv_rejectWord taken r

end Sys2Proof.Machine

/-! The memory's statement (spec/20_memory.md R77): a reading command answers, and changes nothing that its answer
depends on. -/

namespace Sys2Proof.Machine

/-- A check looks at the block, not at what was sent. -/
@[simp] theorem violation_respond (i : Instr) (r : BitVec 32) (s : State) :
    violation i (respond r s) = violation i s := by
  cases i <;> rfl

/-- A completed read is one answer, and the answer given leaves the next one the same. -/
theorem effect_of_onlyReads {i : Instr} (h : onlyReads i = true) (s : State) :
    ∃ r, effect i s = respond r s ∧ effect i (respond r s) = respond r (respond r s) := by
  cases i with
  | sysNop | sysRdreg | pmRdc | pmRdo | dhSlrd | dhSearch | bmTblrd | bmGetkey | bmSymrd | bmGetdist | bmGetout =>
    exact ⟨_, rfl, rfl⟩
  | _ => cases h

/-- Settles O53, by how the command ends: a refused or faulted one is refused with the same code when issued again, and
a completed one completes again. -/
theorem readsHaveNoSideEffect : Obligations.ReadsHaveNoSideEffect := by
  intro i s t hr h
  rcases exec_cases h with ⟨hf, rfl⟩ | ⟨-, c, -, rfl⟩ | ⟨hf, hv, rfl⟩
  · have again : exec i (refuseFaulted s) = .next (refuseFaulted (refuseFaulted s)) := exec_faulted i hf
    exact ⟨rfl, _, refuseFaulted_outputs s, _, again, refuseFaulted_outputs _⟩
  · have again : exec i (takeFault c s) = .next (refuseFaulted (takeFault c s)) := exec_faulted i rfl
    exact ⟨rfl, _, takeFault_outputs c s, _, again, refuseFaulted_outputs _⟩
  · obtain ⟨r, e, e'⟩ := effect_of_onlyReads hr s
    rw [e]
    have again : exec i (respond r s) = .next (respond r (respond r s)) :=
      e' ▸ exec_completes (s := respond r s) hf ((violation_respond i r s).trans hv)
    exact ⟨rfl, _, respond_outputs r s, _, again, respond_outputs r _⟩

end Sys2Proof.Machine

/-! The encoding's statements (spec/30_encoding.md): a word is a command exactly if the command's opcode and operands
are its three fields. -/

namespace Sys2Proof

/-! ## When each operand shape is a command -/

section
variable {a : BitVec 24} {b : BitVec 16} {j : Instr}

theorem orReserved_eq_command_iff {c : Bool} {i : Instr} : orReserved c i = .command j ↔ c = true ∧ i = j := by
  refine ⟨orReserved_eq_command, ?_⟩
  rintro ⟨rfl, rfl⟩
  rfl

theorem takesNone_eq_command_iff {i : Instr} : takesNone i a b = .command j ↔ (a = 0 ∧ b = 0) ∧ i = j := by
  simp [takesNone, orReserved_eq_command_iff]

theorem takesA_eq_command_iff {f : Nat → Instr} : takesA f a b = .command j ↔ b = 0 ∧ f a.toNat = j := by
  simp [takesA, orReserved_eq_command_iff]

theorem takesAB_eq_command_iff {f : Nat → BitVec 16 → Instr} : takesAB f a b = .command j ↔ f a.toNat b = j := by
  simp [takesAB]

theorem takesAByte_eq_command_iff {f : Nat → BitVec 8 → Instr} :
    takesAByte f a b = .command j ↔ b.extractLsb' 8 8 = 0 ∧ f a.toNat (b.extractLsb' 0 8) = j := by
  simp [takesAByte, orReserved_eq_command_iff]

theorem takesASel_eq_command_iff {f : Nat → Bool → Instr} :
    takesASel f a b = .command j ↔ b.extractLsb' 1 15 = 0 ∧ f a.toNat (b.getLsbD 0) = j := by
  simp [takesASel, orReserved_eq_command_iff]

theorem takesSel_eq_command_iff {f : Bool → Instr} :
    takesSel f a b = .command j ↔ (a = 0 ∧ b.extractLsb' 1 15 = 0) ∧ f (b.getLsbD 0) = j := by
  simp [takesSel, orReserved_eq_command_iff]

end

/-! ## A byte as field `B` (`B[7:0]`, `B[15:8]` reserved) -/

theorem byteB_low (v : BitVec 8) : (v.setWidth 16).extractLsb' 0 8 = v := by
  rw [BitVec.extractLsb'_setWidth_of_le (by decide)]
  exact BitVec.extractLsb'_eq_self

theorem byteB_rest (v : BitVec 8) : (v.setWidth 16).extractLsb' 8 8 = 0 := by
  rw [BitVec.extractLsb'_setWidth_of_le (by decide)]
  ext k hk
  simp

/-! ## A word is a command exactly if its fields are the command's -/

/-- The fields `OP`, `A`, `B` spell the command: its opcode, its operands in full, 0 where it has none (R105). -/
structure HasFields (i : Instr) (op : Nat) (a : BitVec 24) (b : BitVec 16) : Prop where
  op_eq : (opcode i).toNat = op
  a_eq : operandA i = a.toNat
  b_eq : operandB i = b
  wf : i.wf = true

theorem fitsA_toNat (a : BitVec 24) : fitsA a.toNat = true := decide_eq_true a.isLt

theorem fitsB_toNat (b : BitVec 16) : fitsB b.toNat = true := decide_eq_true b.isLt

/-- Row by row of R105's table, grouped by the shape of the operands: case `h_n` is row `n` of `decodeFields`, and the
last one its rejection of every other opcode. -/
theorem hasFields_of_decodeFields {op : Nat} {a : BitVec 24} {b : BitVec 16} {i : Instr}
    (h : decodeFields op a b = .command i) : HasFields i op a b := by
  unfold decodeFields at h
  split at h
  case h_1 | h_3 | h_4 | h_9 | h_17 | h_20 | h_24 =>
    obtain ⟨⟨rfl, rfl⟩, rfl⟩ := takesNone_eq_command_iff.mp h
    exact ⟨rfl, rfl, rfl, rfl⟩
  case h_2 | h_5 | h_7 | h_10 | h_19 | h_21 | h_23 | h_25 | h_26 =>
    obtain ⟨rfl, rfl⟩ := takesA_eq_command_iff.mp h
    exact ⟨rfl, rfl, rfl, fitsA_toNat a⟩
  case h_6 | h_8 | h_18 | h_22 =>
    obtain rfl := takesAB_eq_command_iff.mp h
    exact ⟨rfl, rfl, rfl, fitsA_toNat a⟩
  case h_14 =>
    obtain rfl := takesAB_eq_command_iff.mp h
    exact ⟨rfl, rfl, by simp [operandB], Bool.and_eq_true_iff.mpr ⟨fitsA_toNat a, fitsB_toNat b⟩⟩
  case h_11 =>
    obtain ⟨hb, rfl⟩ := takesAByte_eq_command_iff.mp h
    exact ⟨rfl, rfl, byteB_of_rest hb, fitsA_toNat a⟩
  case h_12 | h_13 | h_15 =>
    obtain ⟨hb, rfl⟩ := takesASel_eq_command_iff.mp h
    exact ⟨rfl, rfl, selectorB_of_rest hb, fitsA_toNat a⟩
  case h_16 =>
    obtain ⟨⟨rfl, hb⟩, rfl⟩ := takesSel_eq_command_iff.mp h
    exact ⟨rfl, rfl, selectorB_of_rest hb, rfl⟩
  case h_27 => cases h

/-- Command by command: the row of the command's opcode accepts the command's fields. -/
theorem decodeFields_of_hasFields {op : Nat} {a : BitVec 24} {b : BitVec 16} {i : Instr}
    (h : HasFields i op a b) : decodeFields op a b = .command i := by
  obtain ⟨rfl, ha, rfl, hw⟩ := h
  cases i with
  | sysNop | pmReset | pmSwap | dhReset | dhFlush | bmBuild | bmFill =>
    exact takesNone_eq_command_iff.mpr ⟨⟨BitVec.eq_of_toNat_eq ha.symm, rfl⟩, rfl⟩
  | sysRdreg | pmRdc | pmRdo | dhSlrd | bmTblrd | bmGetkey | bmSymrd | bmGetdist | bmGetout =>
    obtain rfl := ha
    exact takesA_eq_command_iff.mpr ⟨rfl, rfl⟩
  | pmWrc | pmWro | bmTblwr | bmSymwr =>
    obtain rfl := ha
    exact takesAB_eq_command_iff.mpr rfl
  | dhTraceback best mtb =>
    obtain rfl := ha
    have hb : (BitVec.ofNat 16 mtb).toNat = mtb :=
      Nat.mod_eq_of_lt (of_decide_eq_true (Bool.and_eq_true_iff.mp hw).2)
    exact (takesAB_eq_command_iff (f := fun best m => .dhTraceback best m.toNat)).mpr
      (congrArg (Instr.dhTraceback a.toNat) hb)
  | dhSlwr st v =>
    obtain rfl := ha
    exact takesAByte_eq_command_iff.mpr ⟨byteB_rest v, congrArg (Instr.dhSlwr a.toNat) (byteB_low v)⟩
  | dhSearch n w | dhRenorm n w | dhProcskip n w =>
    obtain rfl := ha
    exact takesASel_eq_command_iff.mpr ⟨selectorB_rest w, congrArg _ (selectorB_bit w)⟩
  | dhProc w =>
    exact takesSel_eq_command_iff.mpr
      ⟨⟨BitVec.eq_of_toNat_eq ha.symm, selectorB_rest w⟩, congrArg Instr.dhProc (selectorB_bit w)⟩

theorem decode_eq_command_iff {w : CommandWord} {i : Instr} :
    decode w = .command i ↔ HasFields i (opField w).toNat (aField w) (bField w) :=
  ⟨hasFields_of_decodeFields, decodeFields_of_hasFields⟩

theorem fitsA_operandA {i : Instr} (h : i.wf = true) : fitsA (operandA i) = true := by
  cases i with
  | dhTraceback best mtb => exact (Bool.and_eq_true_iff.mp h).1
  | _ => exact h

/-- Settles O1: the fields of a well-formed command's word are the command's, none truncated. -/
theorem decodeOfEncodeIsCommand : Obligations.DecodeOfEncodeIsCommand := by
  intro i hw
  obtain ⟨hop, ha, hb⟩ := Laws.Fields.of_fits fitsA_operandA hw
  exact decode_eq_command_iff.mpr ⟨congrArg BitVec.toNat hop.symm, ha.symm, hb.symm, hw⟩

/-- Settles O2: a word is its three fields, and they are the fields of the command it decodes to. -/
theorem encodeOfDecodeIsWord : Obligations.EncodeOfDecodeIsWord := by
  intro w i h
  obtain ⟨hop, ha, hb, hw⟩ := decode_eq_command_iff.mp h
  refine ⟨?_, hw⟩
  calc encode i = commandWord (opcode i) (BitVec.ofNat 24 (operandA i)) (operandB i) := rfl
    _ = commandWord (opField w) (aField w) (bField w) := by
      rw [BitVec.eq_of_toNat_eq hop, ha, BitVec.ofNat_toNat, BitVec.setWidth_eq, hb]
    _ = w := commandWord_fields w

/-- Settles O3: each word is evaluated. -/
theorem sampleWordsDecode : Obligations.SampleWordsDecode := by
  unfold Obligations.SampleWordsDecode
  decide

end Sys2Proof

namespace Sys2Proof.Machine

/-! ## A word of the opcode table with no reserved bit set -/

/-- A part of a word that a mask covers is 0 where the mask finds no bit. -/
theorem extractLsb'_eq_zero_of_and {k lo n : Nat} {v m : BitVec k} (h : v &&& m = 0)
    (hm : m.extractLsb' lo n = BitVec.allOnes n) : v.extractLsb' lo n = 0 := by
  calc v.extractLsb' lo n = v.extractLsb' lo n &&& m.extractLsb' lo n := by rw [hm, BitVec.and_allOnes]
    _ = (v &&& m).extractLsb' lo n := BitVec.extractLsb'_and.symm
    _ = 0 := by rw [h]; exact BitVec.extractLsb'_zero

/-- The same of a part of field `B`, which is a part of the word. -/
theorem bField_extractLsb'_eq_zero_of_and {lo n : Nat} {w m : CommandWord} (h : w &&& m = 0) (hn : lo + n ≤ 16)
    (hm : m.extractLsb' lo n = BitVec.allOnes n) : (bField w).extractLsb' lo n = 0 := by
  have part : (bField w).extractLsb' lo n = w.extractLsb' lo n := by
    ext k hk
    have : lo + k < 16 := by omega
    simp [bField, this]
  rw [part, extractLsb'_eq_zero_of_and h hm]

/-- A word of the row's opcode with none of its reserved bits set is a command. -/
def CleanRow (row : BitVec 8 × CommandWord) : Prop :=
  ∀ w : CommandWord, w &&& row.2 = 0 → ∃ i, decodeFields row.1.toNat (aField w) (bField w) = .command i

section
variable {op : BitVec 8}

theorem cleanRow_takesNone {i : Instr} (h : decodeFields op.toNat = takesNone i) : CleanRow (op, 0x00FFFFFFFFFF) := by
  intro w (hw : w &&& 0x00FFFFFFFFFF = 0)
  rw [h]
  exact ⟨i, takesNone_eq_command_iff.mpr
    ⟨⟨extractLsb'_eq_zero_of_and hw (by decide), extractLsb'_eq_zero_of_and hw (by decide)⟩, rfl⟩⟩

theorem cleanRow_takesA {f : Nat → Instr} (h : decodeFields op.toNat = takesA f) : CleanRow (op, 0x00000000FFFF) := by
  intro w (hw : w &&& 0x00000000FFFF = 0)
  rw [h]
  exact ⟨_, takesA_eq_command_iff.mpr ⟨extractLsb'_eq_zero_of_and hw (by decide), rfl⟩⟩

theorem cleanRow_takesAB {f : Nat → BitVec 16 → Instr} (h : decodeFields op.toNat = takesAB f) : CleanRow (op, 0) := by
  intro w _
  rw [h]
  exact ⟨_, takesAB_eq_command_iff.mpr rfl⟩

theorem cleanRow_takesAByte {f : Nat → BitVec 8 → Instr} (h : decodeFields op.toNat = takesAByte f) :
    CleanRow (op, 0x00000000FF00) := by
  intro w (hw : w &&& 0x00000000FF00 = 0)
  have byte : (bField w).extractLsb' 8 8 = 0 :=
    bField_extractLsb'_eq_zero_of_and hw (by decide) (by decide)
  rw [h]
  exact ⟨_, takesAByte_eq_command_iff.mpr ⟨byte, rfl⟩⟩

theorem cleanRow_takesASel {f : Nat → Bool → Instr} (h : decodeFields op.toNat = takesASel f) :
    CleanRow (op, 0x00000000FFFE) := by
  intro w (hw : w &&& 0x00000000FFFE = 0)
  have selector : (bField w).extractLsb' 1 15 = 0 :=
    bField_extractLsb'_eq_zero_of_and hw (by decide) (by decide)
  rw [h]
  exact ⟨_, takesASel_eq_command_iff.mpr ⟨selector, rfl⟩⟩

theorem cleanRow_takesSel {f : Bool → Instr} (h : decodeFields op.toNat = takesSel f) :
    CleanRow (op, 0x00FFFFFFFFFE) := by
  intro w (hw : w &&& 0x00FFFFFFFFFE = 0)
  have selector : (bField w).extractLsb' 1 15 = 0 :=
    bField_extractLsb'_eq_zero_of_and hw (by decide) (by decide)
  rw [h]
  exact ⟨_, takesSel_eq_command_iff.mpr ⟨⟨extractLsb'_eq_zero_of_and hw (by decide), selector⟩, rfl⟩⟩

end

/-- R105's table, row by row: the reserved bits a row marks are those its operand shape tests. -/
theorem cleanRow_of_mem : ∀ row ∈ opcodeRows, CleanRow row := by
  simp only [opcodeRows, List.cons_append, List.nil_append, List.forall_mem_cons]
  exact ⟨cleanRow_takesNone rfl, cleanRow_takesA rfl,
    cleanRow_takesNone rfl, cleanRow_takesNone rfl, cleanRow_takesA rfl, cleanRow_takesAB rfl, cleanRow_takesA rfl,
    cleanRow_takesAB rfl,
    cleanRow_takesNone rfl, cleanRow_takesA rfl, cleanRow_takesAByte rfl, cleanRow_takesASel rfl,
    cleanRow_takesASel rfl, cleanRow_takesAB (f := fun best m => .dhTraceback best m.toNat) rfl,
    cleanRow_takesASel rfl, cleanRow_takesSel rfl, cleanRow_takesNone rfl,
    cleanRow_takesAB rfl, cleanRow_takesA rfl, cleanRow_takesNone rfl, cleanRow_takesA rfl, cleanRow_takesAB rfl,
    cleanRow_takesA rfl, cleanRow_takesNone rfl, cleanRow_takesA rfl, cleanRow_takesA rfl, nofun⟩

/-- Settles O7: the row of the word's opcode accepts its fields, and the command's opcode is then the word's. -/
theorem cleanWordIsCommand : Obligations.CleanWordIsCommand := by
  intro w m hrow hw
  obtain ⟨i, hi⟩ := cleanRow_of_mem _ hrow w hw
  exact ⟨i, hi, BitVec.eq_of_toNat_eq (decode_eq_command_iff.mp hi).op_eq⟩

/-! ## A step on a word -/

/-- Settles O4: the step on a word, in the case of a command. -/
theorem stepRunsDecodedCommand : Obligations.StepRunsDecodedCommand := by
  intro s w rest i hin hd
  rw [step_cmd hin, hd]

/-- How a word is answered (R106, R107): one response, last, after at most one batch; its status is 00 if the block is
not faulted afterwards, and else there is no batch and the status carries the code. -/
def AnswersOnce (s t : State) : Prop :=
  ∃ (o : List Output) (x : Response), t.outputs = s.outputs ++ o ++ [.response x] ∧
    (o = [] ∨ ∃ bits, o = [.batch bits]) ∧
    (t.fault = false → x.st = 0x00) ∧
    (t.fault = true → o = [] ∧ x.st = 0x80 ||| t.fcode.setWidth 8 ∧ x.r = 0)

/-- What a completed command sends: at most one batch, then its result. -/
theorem effect_eq_respond (i : Instr) (s : State) : ∃ r u o,
    effect i s = respond r u ∧ u.outputs = s.outputs ++ o ∧ (o = [] ∨ ∃ bits, o = [.batch bits]) := by
  have process : ∀ skip w, ∃ r u o, respondCount (procskip skip w s) = respond r u ∧
      u.outputs = s.outputs ++ o ∧ (o = [] ∨ ∃ bits, o = [.batch bits]) := by
    intro skip w
    obtain ⟨l, m, c, o, e, -, ho⟩ := procskip_frame skip w s
    exact ⟨_, _, o, rfl, congrArg State.outputs e, ho.imp And.left fun ⟨bits, hb, _⟩ => ⟨bits, hb⟩⟩
  cases i with
  | dhTraceback | dhFlush => exact ⟨_, _, _, rfl, rfl, .inr ⟨_, rfl⟩⟩
  | dhProcskip skip w => exact process skip w
  | dhProc w => exact process 1 w
  | _ => exact ⟨_, _, [], rfl, by simp, .inl rfl⟩

theorem answersOnce_refuseFaulted {s : State} (h : s.fault = true) : AnswersOnce s (refuseFaulted s) :=
  ⟨[], faultResponse s.fcode, by simp, .inl rfl, by simp [h], fun _ => ⟨rfl, rfl, rfl⟩⟩

theorem answersOnce_takeFault (c : Cause) (s : State) : AnswersOnce s (takeFault c s) :=
  ⟨[], faultResponse c.code, by simp, .inl rfl, nofun, fun _ => ⟨rfl, rfl, rfl⟩⟩

theorem answersOnce_effect (i : Instr) {s : State} (h : s.fault = false) : AnswersOnce s (effect i s) := by
  obtain ⟨r, u, o, e, hu, ho⟩ := effect_eq_respond i s
  exact ⟨o, okResponse r, by rw [e, respond_outputs, hu], ho, fun _ => rfl, by simp [h]⟩

theorem answersOnce_exec {i : Instr} {s t : State} (h : exec i s = .next t) : AnswersOnce s t := by
  rcases exec_cases h with ⟨hf, rfl⟩ | ⟨-, c, -, rfl⟩ | ⟨hf, -, rfl⟩
  · exact answersOnce_refuseFaulted hf
  · exact answersOnce_takeFault c s
  · exact answersOnce_effect i hf

theorem answersOnce_rejectWord (r : Reject) (s : State) : AnswersOnce s (rejectWord r s) := by
  unfold rejectWord
  split
  · exact answersOnce_refuseFaulted ‹_›
  · exact answersOnce_takeFault _ s

/-- Settles O12, by what the word is: a command, however it ends, or a rejection. -/
theorem oneResponsePerWord : Obligations.OneResponsePerWord := by
  intro s t w rest hin h
  rw [step_cmd hin] at h
  cases hd : decode w with
  | command i =>
    rw [hd] at h
    exact answersOnce_exec (s := { s with input := rest }) h
  | rejected r =>
    rw [hd] at h
    cases h
    exact answersOnce_rejectWord r { s with input := rest }

/-- The status byte of a fault code (R106): 1 to 7 give 81 to 87. -/
theorem statusFault_toNat : ∀ c : BitVec 4, (statusFault c).toNat = 0x80 + c.toNat := by decide

/-- Settles O13: the one response to the word is the last output, and the invariant after the step bounds `FCODE`. -/
theorem statusByteIsZeroOrFault : Obligations.StatusByteIsZeroOrFault := by
  intro s t w rest x hinv hin h hlast
  obtain ⟨o, y, hout, -, hok, hfault⟩ := oneResponsePerWord s t w rest hin h
  obtain rfl : y = x := by simpa [hout] using hlast
  cases hf : t.fault with
  | false => exact .inl (congrArg BitVec.toNat (hok hf))
  | true =>
    obtain ⟨-, hst, -⟩ := hfault hf
    obtain ⟨hlo, hhi⟩ := (stepKeepsInvariant s t hinv h).fault_code hf
    have : y.st.toNat = 0x80 + t.fcode.toNat := by rw [hst]; exact statusFault_toNat _
    omega

end Sys2Proof.Machine

/-! The path-metric store's statements (spec/40_pms_commands.md): what the six commands do to the two buffers and to
`SEL`, and what the words of their operand shapes decode to. -/

namespace Sys2Proof

/-! ## What a word of each operand shape decodes to -/

section
variable {op : BitVec 8}

theorem decode_of_takesNone {i : Instr} (h : decodeFields op.toNat = takesNone i) (a : BitVec 24) (b : BitVec 16) :
    decode (commandWord op a b) = if a = 0 ∧ b = 0 then .command i else .rejected .reserved := by
  rw [decode_commandWord, h]
  simp [takesNone, orReserved]

theorem decode_of_takesA {f : Nat → Instr} (h : decodeFields op.toNat = takesA f) (a : BitVec 24) (b : BitVec 16) :
    decode (commandWord op a b) = if b = 0 then .command (f a.toNat) else .rejected .reserved := by
  rw [decode_commandWord, h]
  simp [takesA, orReserved]

theorem decode_of_takesAB {f : Nat → BitVec 16 → Instr} (h : decodeFields op.toNat = takesAB f) (a : BitVec 24)
    (b : BitVec 16) : decode (commandWord op a b) = .command (f a.toNat b) := by
  rw [decode_commandWord, h]
  rfl

end

end Sys2Proof

namespace Sys2Proof.Machine

/-! ## The two buffers, by selector (R27) -/

@[simp] theorem readMetric_respond (r : BitVec 32) (s : State) (w : Bool) (i : Nat) :
    readMetric (respond r s) w i = readMetric s w i := rfl

theorem buf_current (s : State) : buf s false = if s.sel then s.pm1 else s.pm0 := by
  simp [buf, pmBuffer]

theorem buf_other (s : State) : buf s true = if s.sel then s.pm0 else s.pm1 := by
  simp only [buf, pmBuffer, Bool.xor_true]
  cases s.sel <;> rfl

/-- Toggling `SEL` exchanges the two selectors. -/
theorem readMetric_toggleSel (s : State) (w : Bool) (i : Nat) :
    readMetric { s with sel := !s.sel } w i = readMetric s (!w) i := by
  have selectors : (!s.sel ^^ w) = (s.sel ^^ !w) := by rw [Bool.not_xor, Bool.xor_not]
  exact congrArg (fun b => readElem (pmBuffer s b) i) selectors

theorem readMetric_resetMetrics (s : State) (w : Bool) (i : Nat) : readMetric (resetMetrics s) w i = 0 := by
  unfold readMetric buf pmBuffer
  split <;> exact readElem_replicate _ _

theorem readMetric_hardReset (s : State) (w : Bool) (i : Nat) : readMetric (hardReset s) w i = 0 :=
  readMetric_afterHardReset s.params (s.resets + 1) w i

/-- A metric write touches the two buffers only. -/
theorem writeMetric_untouched (w : Bool) (i : Nat) (m : Metric) (s : State) :
    { writeMetric w i m s with pm0 := s.pm0, pm1 := s.pm1 } = s := by
  unfold writeMetric setBuf setPmBuffer
  split <;> rfl

/-! ## The reads and the writes of one metric -/

section
variable {s : State} {st : Nat}

theorem exec_pmRdc (hf : s.fault = false) (h : st < s.params.numStates) :
    exec (.pmRdc st) s = .next (answered ((readMetric s false st).setWidth 32) s) :=
  exec_completes hf (checkIndex_ok h)

theorem exec_pmRdo (hf : s.fault = false) (h : st < s.params.numStates) :
    exec (.pmRdo st) s = .next (answered ((readMetric s true st).setWidth 32) s) :=
  exec_completes hf (checkIndex_ok h)

theorem violation_metricWrite (w : Bool) (m : Metric) :
    violation (if w then .pmWro st m else .pmWrc st m) s = checkIndex st s.params.numStates := by
  cases w <;> rfl

theorem effect_metricWrite (w : Bool) (m : Metric) :
    effect (if w then .pmWro st m else .pmWrc st m) s = respond 0 (writeMetric w st m s) := by
  cases w <;> rfl

/-- Where every metric is 0, both reads answer 0. -/
theorem exec_reads_zero (hf : s.fault = false) (h : st < s.params.numStates) (h0 : ∀ w i, readMetric s w i = 0) :
    exec (.pmRdc st) s = .next (answered 0 s) ∧ exec (.pmRdo st) s = .next (answered 0 s) := by
  rw [exec_pmRdc hf h, exec_pmRdo hf h, h0, h0]
  exact ⟨rfl, rfl⟩

end

/-- Settles O22: the two reads complete or fault by their index check, and both kinds of reset leave every metric 0. -/
theorem metricReadsAnswerBuffers : Obligations.MetricReadsAnswerBuffers := by
  refine ⟨decode_of_takesA rfl, decode_of_takesA rfl, fun s st hf => ⟨fun h => ?_, fun h => ?_, fun z hz h => ?_⟩⟩
  · rw [← buf_current, ← buf_other]
    exact ⟨exec_pmRdc hf h, exec_pmRdo hf h⟩
  · exact ⟨exec_violation hf (checkIndex_bad h), exec_violation hf (checkIndex_bad h)⟩
  · rcases hz with hz | ⟨rest, hi, hz⟩
    · have reset : exec .pmReset s = .next (respond 0 (resetMetrics s)) := exec_completes hf rfl
      rw [reset] at hz
      cases hz
      exact exec_reads_zero hf h (readMetric_resetMetrics s)
    · rw [step_rst hi] at hz
      cases hz
      exact exec_reads_zero rfl h (readMetric_hardReset _)

/-- Settles O23: both writes are `writeMetric` of their buffer behind one index check. -/
theorem metricWritesStoreOneMetric : Obligations.MetricWritesStoreOneMetric := by
  refine ⟨decode_of_takesAB rfl, decode_of_takesAB rfl, fun s w st m hf hm => ⟨fun h => ?_, fun h => ?_⟩⟩
  · have completes : exec (if w then .pmWro st m else .pmWrc st m) s = .next (respond 0 (writeMetric w st m s)) := by
      rw [exec_completes hf ((violation_metricWrite w m).trans (checkIndex_ok h)), effect_metricWrite]
    have stored : readMetric (writeMetric w st m s) w st = m :=
      readMetric_writeMetric_same (by rwa [length_buf hm]) m
    have kept (v : Bool) (j : Nat) (hne : (v, j) ≠ (w, st)) :
        readMetric (writeMetric w st m s) v j = readMetric s v j := readMetric_writeMetric_ne hne.symm m
    have sent : (respond 0 (writeMetric w st m s)).outputs = s.outputs ++ [.response { st := 0x00, r := 0 }] := by
      rw [respond_outputs, writeMetric_outputs]
      rfl
    have frame : { respond 0 (writeMetric w st m s) with pm0 := s.pm0, pm1 := s.pm1, outputs := s.outputs } = s := by
      rw [← writeMetric_outputs w st m s]
      exact writeMetric_untouched w st m s
    exact ⟨_, completes, stored, kept, sent, memory_wf_writeMetric hm w st m, frame⟩
  · exact exec_violation hf ((violation_metricWrite w m).trans (checkIndex_bad h))

/-! ## Isolation of the two buffers, as a run (R137) -/

theorem runCommands_append {cs ds : List Instr} {s t : State} (h : runCommands cs s = .next t) :
    runCommands (cs ++ ds) s = runCommands ds t := by
  induction cs generalizing s with
  | nil =>
    cases h
    rfl
  | cons i cs ih =>
    obtain ⟨u, hu⟩ := exec_answers i s
    simp only [List.cons_append, runCommands, hu] at h ⊢
    exact ih h

/-- A run of commands from `s` to `t` whose answers are the metrics `rs`, each with status OK. -/
def RunAnswers (cs : List Instr) (s t : State) (rs : List Metric) : Prop :=
  runCommands cs s = .next t ∧ t.responses = s.responses ++ rs.map fun v => { st := 0x00, r := v.setWidth 32 }

theorem RunAnswers.append {cs ds : List Instr} {s t u : State} {rs qs : List Metric} (h : RunAnswers cs s t rs)
    (k : RunAnswers ds t u qs) : RunAnswers (cs ++ ds) s u (rs ++ qs) := by
  obtain ⟨toT, answersT⟩ := h
  obtain ⟨toU, answersU⟩ := k
  exact ⟨(runCommands_append toT).trans toU, by rw [answersU, answersT, List.map_append, List.append_assoc]⟩

/-- One command that completes with a metric as its answer. -/
theorem runAnswers_one {i : Instr} {s t : State} (v : Metric) (h : exec i s = .next t)
    (ht : t.outputs = s.outputs ++ [.response { st := 0x00, r := v.setWidth 32 }]) : RunAnswers [i] s t [v] := by
  refine ⟨by simp only [runCommands, h], ?_⟩
  simp [State.responses, ht]

/-- The block accepts commands, and at state `st` its current buffer holds `m` and its other buffer `m'`. -/
structure HoldsMetrics (s : State) (st : Nat) (m m' : Metric) : Prop where
  no_fault : s.fault = false
  in_range : st < s.params.numStates
  current : readMetric s false st = m
  other : readMetric s true st = m'

section
variable {s : State} {st : Nat} {m m' : Metric}

/-- One metric write, with what the next command needs of the state it leaves. -/
theorem write_answers (hf : s.fault = false) (hm : Memory.wf s = true) (h : st < s.params.numStates) (w : Bool)
    (m : Metric) :
    ∃ t, RunAnswers [if w then .pmWro st m else .pmWrc st m] s t [0] ∧ t.fault = false ∧ Memory.wf t = true ∧
      st < t.params.numStates ∧ readMetric t w st = m ∧ readMetric t (!w) st = readMetric s (!w) st := by
  obtain ⟨t, he, stored, kept, sent, wf, frame⟩ := (metricWritesStoreOneMetric.2.2 s w st m hf hm).1 h
  have fault : t.fault = s.fault := (congrArg State.fault frame :)
  have params : t.params = s.params := (congrArg State.params frame :)
  exact ⟨t, runAnswers_one 0 he sent, fault.trans hf, wf, params ▸ h, stored, kept _ _ (by simp)⟩

theorem writes_holdMetrics (hf : s.fault = false) (hm : Memory.wf s = true) (h : st < s.params.numStates)
    (m m' : Metric) :
    ∃ t, RunAnswers [.pmWrc st m, .pmWro st m'] s t [0, 0] ∧ HoldsMetrics t st m m' := by
  obtain ⟨t, first, hft, hmt, ht, current, -⟩ := write_answers hf hm h false m
  obtain ⟨u, second, hfu, -, hu, other, kept⟩ := write_answers hft hmt ht true m'
  exact ⟨u, first.append second, hfu, hu, kept.trans current, other⟩

theorem HoldsMetrics.answered (h : HoldsMetrics s st m m') (r : BitVec 32) :
    HoldsMetrics (answered r s) st m m' :=
  ⟨h.no_fault, h.in_range, h.current, h.other⟩

theorem HoldsMetrics.reads (h : HoldsMetrics s st m m') :
    ∃ t, RunAnswers [.pmRdc st, .pmRdo st] s t [m, m'] ∧ HoldsMetrics t st m m' := by
  have between := h.answered (m.setWidth 32)
  have first := runAnswers_one m (h.current ▸ exec_pmRdc h.no_fault h.in_range) rfl
  have second := runAnswers_one m' (between.other ▸ exec_pmRdo between.no_fault between.in_range) rfl
  exact ⟨_, first.append second, between.answered _⟩

theorem HoldsMetrics.swap (h : HoldsMetrics s st m m') :
    ∃ t, RunAnswers [.pmSwap] s t [0] ∧ HoldsMetrics t st m' m :=
  ⟨_, runAnswers_one 0 (exec_completes h.no_fault rfl) rfl, h.no_fault, h.in_range,
    (readMetric_toggleSel s false st).trans h.other, (readMetric_toggleSel s true st).trans h.current⟩

end

/-- Settles O24: the run in six parts, through what both buffers hold between them. -/
theorem doubleBufferIsolation : Obligations.DoubleBufferIsolation := by
  intro s st m m' hf hm h
  obtain ⟨t₁, written, h₁⟩ := writes_holdMetrics hf hm h m m'
  obtain ⟨t₂, read, h₂⟩ := h₁.reads
  obtain ⟨t₃, swapped, h₃⟩ := h₂.swap
  obtain ⟨t₄, read', h₄⟩ := h₃.reads
  obtain ⟨t₅, swapped', h₅⟩ := h₄.swap
  obtain ⟨t₆, read'', -⟩ := h₅.reads
  exact ⟨t₆, written.append (read.append (swapped.append (read'.append (swapped'.append read''))))⟩

/-! ## The reset and the swap -/

/-- Settles O20: `PM.RESET` checks nothing, and its effect is the reset of both buffers and `SEL`. -/
theorem metricResetZeroesBothBuffers : Obligations.MetricResetZeroesBothBuffers :=
  ⟨decode_of_takesNone rfl, fun _ hf => exec_completes hf rfl⟩

/-- Settles O21: toggling `SEL` exchanges the selectors, and toggling it twice gives the state back. -/
theorem swapTogglesSelectOnly : Obligations.SwapTogglesSelectOnly := by
  refine ⟨decode_of_takesNone rfl, fun s hf => ⟨_, exec_completes hf rfl, rfl, readMetric_toggleSel s, ?_⟩⟩
  have restored : effect .pmSwap (effect .pmSwap s) = answered 0 (answered 0 s) := by
    simp only [effect, respond_sel, Bool.not_not]
    rfl
  exact ⟨_, exec_completes hf rfl, restored⟩

end Sys2Proof.Machine

/-! The decision history's statements (spec/41_dh_commands.md): the slices, the search, the renormalization, the
traceback, the process that combines them, and the conservation of bits. -/

namespace Sys2Proof

/-! ## What a word of the operand shapes with a byte or a selector decodes to -/

/-- The bits of a field from `lo` up are clear exactly if the field is below `2^lo`. -/
theorem extractLsb'_top_eq_zero_iff {k lo n : Nat} (hk : k = lo + n) (b : BitVec k) :
    b.extractLsb' lo n = 0 ↔ b.toNat < 2 ^ lo := by
  subst hk
  have top : (b.extractLsb' lo n).toNat = b.toNat / 2 ^ lo := by
    rw [BitVec.extractLsb'_toNat, Nat.shiftRight_eq_div_pow]
    exact Nat.mod_eq_of_lt (Nat.div_lt_of_lt_mul (Nat.pow_add 2 lo n ▸ b.isLt))
  rw [BitVec.toNat_eq, top]
  simp [Nat.div_eq_zero_iff]

section
variable {op : BitVec 8}

theorem decode_of_takesAByte {f : Nat → BitVec 8 → Instr} (h : decodeFields op.toNat = takesAByte f) (a : BitVec 24)
    (b : BitVec 16) : decode (commandWord op a b) =
      if b.toNat < 256 then .command (f a.toNat (b.setWidth 8)) else .rejected .reserved := by
  have clear : b.extractLsb' 8 8 = 0 ↔ b.toNat < 256 := extractLsb'_top_eq_zero_iff (lo := 8) (n := 8) rfl b
  have byte : b.extractLsb' 0 8 = b.setWidth 8 := (BitVec.setWidth_eq_extractLsb' (by decide)).symm
  rw [decode_commandWord, h]
  simp only [takesAByte, orReserved, beq_iff_eq, clear, byte]

theorem decode_of_takesASel {f : Nat → Bool → Instr} (h : decodeFields op.toNat = takesASel f) (a : BitVec 24)
    (b : BitVec 16) : decode (commandWord op a b) =
      if b.toNat < 2 then .command (f a.toNat (b.getLsbD 0)) else .rejected .reserved := by
  have clear : b.extractLsb' 1 15 = 0 ↔ b.toNat < 2 := extractLsb'_top_eq_zero_iff (lo := 1) (n := 15) rfl b
  rw [decode_commandWord, h]
  simp only [takesASel, orReserved, beq_iff_eq, clear]

theorem decode_of_takesSel {f : Bool → Instr} (h : decodeFields op.toNat = takesSel f) (a : BitVec 24)
    (b : BitVec 16) : decode (commandWord op a b) =
      if a = 0 ∧ b.toNat < 2 then .command (f (b.getLsbD 0)) else .rejected .reserved := by
  have clear : b.extractLsb' 1 15 = 0 ↔ b.toNat < 2 := extractLsb'_top_eq_zero_iff (lo := 1) (n := 15) rfl b
  rw [decode_commandWord, h]
  simp only [takesSel, orReserved, Bool.and_eq_true, beq_iff_eq, clear]

end

end Sys2Proof

namespace Sys2Proof.Machine

/-! ## What was sent: `OUT` and the batches (R47, R107, R108) -/

section
variable {s t : State}

theorem out_congr (h : t.outputs = s.outputs) : t.out = s.out := by
  simp only [State.out, State.batches, h]

/-- A response is no part of the sink's stream. -/
theorem batches_of_response {x : Response} (h : t.outputs = s.outputs ++ [.response x]) : t.batches = s.batches := by
  simp [State.batches, h]

theorem batches_of_batch {bits : List Bool} (h : t.outputs = s.outputs ++ [.batch bits]) :
    t.batches = s.batches ++ [bits] := by
  simp [State.batches, h]

theorem out_of_response {x : Response} (h : t.outputs = s.outputs ++ [.response x]) : t.out = s.out := by
  simp only [State.out, batches_of_response h]

theorem out_of_batch {bits : List Bool} (h : t.outputs = s.outputs ++ [.batch bits]) :
    t.out = s.out ++ bits.reverse := by
  simp [State.out, batches_of_batch h]

end

@[simp] theorem out_respond (r : BitVec 32) (s : State) : (respond r s).out = s.out := out_of_response rfl

@[simp] theorem out_respondCount (x : State × Nat) : (respondCount x).out = x.1.out := out_of_response rfl

@[simp] theorem out_refuseFaulted (s : State) : (refuseFaulted s).out = s.out := out_of_response rfl

@[simp] theorem out_takeFault (c : Cause) (s : State) : (takeFault c s).out = s.out := out_of_response rfl

/-! ## How many bits a traceback and a process hand over, and the slices they leave -/

theorem traceback_len (best mtb : Nat) (s : State) :
    (traceback best mtb s).1.len.toNat = min mtb s.len.toNat := by
  obtain ⟨n, bits, e, -, hn, hlen⟩ := traceback_frame best mtb s
  have := s.len.isLt
  rw [e, sendBatch_len, hn, hlen, BitVec.toNat_ofNat]
  omega

theorem traceback_out_length (best mtb : Nat) (s : State) :
    (traceback best mtb s).1.out.length = s.out.length + (s.len.toNat - mtb) := by
  obtain ⟨n, bits, e, -, -, hlen⟩ := traceback_frame best mtb s
  have sent : (traceback best mtb s).1.out = s.out ++ bits.reverse :=
    out_of_batch (by rw [e, sendBatch_outputs])
  rw [sent, List.length_append, List.length_reverse, hlen]

/-- The number a process answers is the number of bits it hands over (R171). -/
theorem procskip_out_length (skip : Nat) (w : Bool) (s : State) :
    (procskip skip w s).1.out.length = s.out.length + (procskip skip w s).2 := by
  obtain ⟨l, m, c, o, e, -, ⟨rfl, hn⟩ | ⟨bits, rfl, hn⟩⟩ := procskip_frame skip w s
  · have silent : (procskip skip w s).1.out = s.out := out_congr (by simp [e])
    rw [silent, hn, Nat.add_zero]
  · have sent : (procskip skip w s).1.out = s.out ++ bits.reverse := out_of_batch (by simp [e])
    rw [sent, hn, List.length_append, List.length_reverse]

/-! ## Conservation of bits: `|OUT| + LEN` over a command -/

/-- The bits handed to the sink and the valid slices that wait, together (R179). -/
def bitCount (s : State) : Nat := s.out.length + s.len.toNat

@[simp] theorem bitCount_respondCount (x : State × Nat) : bitCount (respondCount x) = bitCount x.1 := by
  simp [bitCount]

theorem traceback_bitCount (best mtb : Nat) (s : State) : bitCount (traceback best mtb s).1 = bitCount s := by
  unfold bitCount
  rw [traceback_len, traceback_out_length]
  omega

theorem procskip_bitCount {s : State} (h : Inv s) (skip : Nat) (w : Bool) :
    bitCount (procskip skip w s).1 = bitCount s + 1 := by
  obtain ⟨-, hl, -, hn⟩ := procskip_counts h.idx_lt h.len_lt h.rcnt_lt skip w
  have cap : s.params.cap = s.params.minTb + s.params.tbGroup := rfl
  unfold bitCount
  rw [procskip_out_length, hl, hn]
  split <;> omega

/-- Only the commands that move `LEN` hand over bits, and of those not `DH.RESET`. -/
theorem effect_out {i : Instr} (h : writesLength i = false ∨ i = .dhReset) (s : State) :
    (effect i s).out = s.out := by
  cases i with
  | dhProcskip | dhProc | dhTraceback | dhFlush => simp [writesLength] at h
  | _ => exact (out_respond _ _).trans (out_congr (by simp))

theorem effect_bitCount_of_len_kept {i : Instr} (h : writesLength i = false) (s : State) :
    bitCount (effect i s) = bitCount s := by
  simp only [bitCount, effect_out (.inl h), effect_len h]

theorem effect_bitCount {i : Instr} {s : State} (h : Inv s) (hi : i ≠ .dhReset) :
    bitCount (effect i s) = bitCount s + if commits i = true then 1 else 0 := by
  cases i with
  | dhReset => exact absurd rfl hi
  | dhTraceback | dhFlush => exact (bitCount_respondCount _).trans (traceback_bitCount _ _ s)
  | dhProcskip skip w => exact (bitCount_respondCount _).trans (procskip_bitCount h skip w)
  | dhProc w => exact (bitCount_respondCount _).trans (procskip_bitCount h 1 w)
  | _ => exact effect_bitCount_of_len_kept rfl s

/-! ## How a command that ends not faulted, or faulted, went -/

section
variable {i : Instr} {s t : State}

/-- A command that ends not faulted completed. -/
theorem exec_of_not_faulted (h : exec i s = .next t) (ht : t.fault = false) :
    s.fault = false ∧ violation i s = none ∧ t = effect i s := by
  rcases exec_cases h with ⟨hf, rfl⟩ | ⟨-, c, -, rfl⟩ | ended
  · exact absurd (hf.symm.trans ht) (by decide)
  · cases ht
  · exact ended

/-- A command that ends faulted sends no bit and moves no slice (R236, R244). -/
theorem exec_of_faulted (h : exec i s = .next t) (ht : t.fault = true) : t.out = s.out ∧ t.len = s.len := by
  rcases exec_cases h with ⟨-, rfl⟩ | ⟨-, c, -, rfl⟩ | ⟨hf, -, rfl⟩
  · exact ⟨out_refuseFaulted s, rfl⟩
  · exact ⟨out_takeFault c s, rfl⟩
  · rw [effect_fault, hf] at ht
    cases ht

theorem exec_bitCount (hinv : Inv s) (h : exec i s = .next t) (ht : t.fault = false) (hi : i ≠ .dhReset) :
    bitCount t = bitCount s + if commits i = true then 1 else 0 := by
  obtain ⟨-, -, rfl⟩ := exec_of_not_faulted h ht
  exact effect_bitCount hinv hi

end

theorem rejectWord_out_len (r : Reject) (s : State) :
    (rejectWord r s).out = s.out ∧ (rejectWord r s).len = s.len := by
  unfold rejectWord
  split
  · exact ⟨out_refuseFaulted s, rfl⟩
  · exact ⟨out_takeFault _ s, rfl⟩

/-- A step that ends faulted, by what is presented: a word, which is a command or a rejection, since `RST` leaves the
fault. -/
theorem step_of_faulted {s t : State} (h : step s = .next t) (ht : t.fault = true) :
    t.out = s.out ∧ t.len = s.len := by
  cases hi : s.input with
  | nil =>
    rw [step_idle hi] at h
    cases h
    exact ⟨rfl, rfl⟩
  | cons x rest =>
    cases x with
    | rst =>
      rw [step_rst hi] at h
      cases h
      cases ht
    | cmd w =>
      rw [step_cmd hi] at h
      cases hd : decode w with
      | command i =>
        rw [hd] at h
        exact exec_of_faulted (s := { s with input := rest }) h ht
      | rejected r =>
        rw [hd] at h
        cases h
        exact rejectWord_out_len r { s with input := rest }

/-- Settles O57: a word that completes is the effect of its command, which keeps `|OUT| + LEN` but for the slice a
process commits; a step that faults, or waits, sends and moves nothing. -/
theorem stepConservesBits : Obligations.StepConservesBits := by
  intro s t hinv h
  refine ⟨fun w rest i hin hd ht => ?_, ?_⟩
  · rw [stepRunsDecodedCommand s w rest i hin hd] at h
    have taken : Inv { s with input := rest } := inv_withPorts hinv rest s.outputs
    refine ⟨exec_bitCount (s := { s with input := rest }) taken h ht, ?_⟩
    rintro rfl
    obtain ⟨-, -, rfl⟩ := exec_of_not_faulted h ht
    exact ⟨effect_out (.inr rfl) { s with input := rest }, rfl⟩
  · rintro (ht | hin)
    · exact step_of_faulted h ht
    · rw [step_idle hin] at h
      cases h
      exact ⟨rfl, rfl⟩

/-! ## The slices (R151 to R153) -/

/-- Settles O25: `DH.RESET` checks nothing, and its effect is the reset of the history. -/
theorem historyResetEmptiesHistory : Obligations.HistoryResetEmptiesHistory :=
  ⟨decode_of_takesNone rfl, fun _ hf => exec_completes hf rfl⟩

/-- Settles O26: the read completes or faults by its index check. -/
theorem sliceReadAnswersEntry : Obligations.SliceReadAnswersEntry :=
  ⟨decode_of_takesA rfl, fun _ _ hf =>
    ⟨fun h => exec_completes hf (checkIndex_ok h), fun h => exec_violation hf (checkIndex_bad h)⟩⟩

/-- Settles O27: the write is `writeEntry` of the slice at `IDX` behind one index check. -/
theorem sliceWriteStoresOneEntry : Obligations.SliceWriteStoresOneEntry := by
  refine ⟨decode_of_takesAByte rfl, fun s st v hf hm hidx => ⟨fun h => ?_, fun h => ?_⟩⟩
  · have stored := readEntry_writeEntry_same hm hidx h v
    have kept (p j : Nat) (hne : (p, j) ≠ (s.idx.toNat, st)) := readEntry_writeEntry_ne (s := s) hne.symm v
    exact ⟨_, exec_completes hf (checkIndex_ok h), stored, kept, rfl, memory_wf_writeEntry hm _ st v, rfl⟩
  · exact exec_violation hf (checkIndex_bad h)

/-! ## The search (R160, R161) -/

theorem exec_dhSearch {s : State} {stride : Nat} (hf : s.fault = false) (hs : 1 ≤ stride) (w : Bool) :
    exec (.dhSearch stride w) s = .next (answered (BitVec.ofNat 32 (search s w stride)) s) :=
  exec_completes hf (checkStride_ok hs)

/-- Settles O28: the answer is `search`, which is the best scanned state. -/
theorem searchAnswersLowestBest : Obligations.SearchAnswersLowestBest := by
  refine ⟨decode_of_takesASel rfl, fun s stride w hf => ⟨fun hs => ?_, ?_⟩⟩
  · exact ⟨search s w stride, exec_dhSearch hf hs w, search_spec s w hs⟩
  · rintro rfl
    exact exec_violation hf rfl

/-- Settles O29: were the answer above 0, its metric would be below that of state 0, and both are `0xFFFF`. -/
theorem searchAllOnesAnswersZero : Obligations.SearchAllOnesAnswersZero := by
  intro s stride w hf hs hall
  obtain ⟨hlt, hdvd, -, first⟩ := search_spec s w hs
  have zero : search s w stride = 0 := by
    by_contra hne
    have below := first 0 (Nat.dvd_zero _) (Nat.pos_of_ne_zero hne)
    rw [hall _ hdvd hlt, hall 0 (Nat.dvd_zero _) (Nat.two_pow_pos _)] at below
    exact absurd below (Nat.lt_irrefl _)
  rw [exec_dhSearch hf hs, zero]
  rfl

/-! ## The renormalization (R163, R164) -/

/-- Replacing a buffer touches the two buffers only. -/
theorem setBuf_untouched (w : Bool) (l : List Metric) (s : State) :
    { setBuf w l s with pm0 := s.pm0, pm1 := s.pm1 } = s := by
  unfold setBuf setPmBuffer
  split <;> rfl

theorem exec_dhRenorm {s : State} {ms : Nat} (hf : s.fault = false) (h : ms < s.params.numStates) (w : Bool) :
    exec (.dhRenorm ms w) s = .next (respond 0 (renormalize w ms s)) :=
  exec_completes hf (checkIndex_ok h)

/-- Settles O30: the effect is `renormalize` behind one index check. -/
theorem renormalizeSubtractsFromBuffer : Obligations.RenormalizeSubtractsFromBuffer := by
  refine ⟨decode_of_takesASel rfl, fun s ms w hf hm => ⟨fun h => ?_, fun h => exec_violation hf (checkIndex_bad h)⟩⟩
  have subtracted (i : Nat) (hi : i < s.params.numStates) : (readMetric (renormalize w ms s) w i).toNat =
      ((readMetric s w i).toNat + 2 ^ 16 - (readMetric s w ms).toNat) % 2 ^ 16 := by
    have := (readMetric s w ms).isLt
    rw [readMetric_renormalize (by rwa [length_buf hm]), BitVec.toNat_sub]
    congr 1
    omega
  have kept (i : Nat) : readMetric (renormalize w ms s) (!w) i = readMetric s (!w) i :=
    congrArg (readElem · i) (buf_renormalize_other w ms s)
  have sent : (respond 0 (renormalize w ms s)).outputs = s.outputs ++ [.response { st := 0x00, r := 0 }] := by
    rw [respond_outputs, renormalize_outputs]
    rfl
  have frame : { respond 0 (renormalize w ms s) with pm0 := s.pm0, pm1 := s.pm1, outputs := s.outputs } = s := by
    rw [← renormalize_outputs w ms s]
    exact setBuf_untouched w _ s
  exact ⟨_, exec_dhRenorm hf h w, subtracted, kept, sent, memory_wf_renormalize hm w ms, frame⟩

/-- Settles O31: one metric is subtracted from every other and from itself. -/
theorem renormalizeKeepsDifferences : Obligations.RenormalizeKeepsDifferences := by
  intro s t ms w hf hm hms h
  rw [exec_dhRenorm hf hms] at h
  cases h
  have read (i : Nat) (hi : i < s.params.numStates) :
      readMetric (respond 0 (renormalize w ms s)) w i = readMetric s w i - readMetric s w ms :=
    readMetric_renormalize (by rwa [length_buf hm]) ms
  refine ⟨by rw [read ms hms, BitVec.sub_self]; rfl, fun a b ha hb => ?_⟩
  rw [read a ha, read b hb]
  exact sub_sub_sub_cancel_right _ _ _

/-! ## The traceback: what it checks and what it sends (R166 to R168) -/

section
variable {s : State} {best mtb : Nat}

theorem violation_dhTraceback_ok (hb : best < s.params.numStates) (hm : mtb ≤ s.len.toNat) :
    violation (.dhTraceback best mtb) s = none := by
  rw [violation, checkIndex_ok hb, firstOf_none, checkWarmup_ok hm]

theorem violation_dhTraceback_index (hb : s.params.numStates ≤ best) :
    violation (.dhTraceback best mtb) s = some .index := by
  rw [violation, checkIndex_bad hb, firstOf_some]

theorem violation_dhTraceback_tblen (hb : best < s.params.numStates) (hm : s.len.toNat < mtb) :
    violation (.dhTraceback best mtb) s = some .tblen := by
  rw [violation, checkIndex_ok hb, firstOf_none, checkWarmup_bad hm]

/-- The check of `DH.TRACEBACK` passes exactly for a state in range and a warm-up that the history covers. -/
theorem violation_dhTraceback_eq_none_iff :
    violation (.dhTraceback best mtb) s = none ↔ best < s.params.numStates ∧ mtb ≤ s.len.toNat := by
  rcases Nat.lt_or_ge best s.params.numStates with hb | hb
  · rcases Nat.lt_or_ge s.len.toNat mtb with hm | hm
    · simp [violation_dhTraceback_tblen hb hm, hm]
    · simp [violation_dhTraceback_ok hb hm, hb, hm]
  · simp [violation_dhTraceback_index hb, hb]

theorem exec_dhTraceback (hf : s.fault = false) (hb : best < s.params.numStates) (hm : mtb ≤ s.len.toNat) :
    exec (.dhTraceback best mtb) s = .next (respondCount (traceback best mtb s)) :=
  exec_completes hf (violation_dhTraceback_ok hb hm)

/-- A traceback in closed form, as the answer after its one batch. -/
theorem respondCount_traceback (hi : s.idx.toNat < s.params.cap) (hl : s.len.toNat ≤ s.params.cap)
    (hm : mtb ≤ s.len.toNat) :
    respondCount (traceback best mtb s) = answered (BitVec.ofNat 32 (s.len.toNat - mtb)) { s with
      len := BitVec.ofNat 16 mtb, outputs := s.outputs ++ [.batch (walkBatch s best mtb)] } := by
  rw [traceback_eq hi hl hm]
  rfl

end

/-- Settles O32: the two checks in their order, and the loop of P166 in closed form. -/
theorem tracebackEmitsWalk : Obligations.TracebackEmitsWalk := by
  refine ⟨decode_of_takesAB (f := fun best m => .dhTraceback best m.toNat) rfl, fun s best mtb hf hi hl =>
    ⟨fun hb hm => ?_, fun hb => exec_violation hf (violation_dhTraceback_index hb),
      fun hb hm => exec_violation hf (violation_dhTraceback_tblen hb hm)⟩⟩
  refine ⟨_, exec_dhTraceback hf hb hm, respondCount_traceback hi hl hm, length_walkBatch s best mtb, ?_⟩
  rw [out_respondCount, traceback_eq hi hl hm]
  exact out_of_batch rfl

/-! ## What a traceback depends on (R169) -/

section
variable {s u : State} {best mtb : Nat}

/-- The batches a `DH.TRACEBACK` hands over, however it ends: one if it completes, else none. -/
def tracebackBatches (best mtb : Nat) (s : State) : List (List Bool) :=
  if s.fault = false ∧ best < s.params.numStates ∧ mtb ≤ s.len.toNat then
    [walk s mtb s.len.toNat 0 s.idx.toNat best]
  else []

theorem batches_dhTraceback {t : State} (h : exec (.dhTraceback best mtb) s = .next t) :
    t.batches = s.batches ++ tracebackBatches best mtb s := by
  unfold tracebackBatches
  rcases exec_cases h with ⟨hf, rfl⟩ | ⟨hf, c, hv, rfl⟩ | ⟨hf, hv, rfl⟩
  · rw [if_neg (by simp [hf]), List.append_nil]
    exact batches_of_response (refuseFaulted_outputs s)
  · have illegal : ¬(best < s.params.numStates ∧ mtb ≤ s.len.toNat) :=
      fun legal => by simp [violation_dhTraceback_eq_none_iff.mpr legal] at hv
    rw [if_neg (fun h => illegal h.2), List.append_nil]
    exact batches_of_response (takeFault_outputs c s)
  · rw [if_pos ⟨hf, violation_dhTraceback_eq_none_iff.mp hv⟩]
    exact (batches_of_response rfl).trans (batches_of_batch rfl)

theorem tracebackBatches_congr (hp : s.params = u.params) (hi : s.idx = u.idx) (hl : s.len = u.len)
    (hf : s.fault = u.fault) (hw : best < s.params.numStates →
      walk s mtb s.len.toNat 0 s.idx.toNat best = walk u mtb s.len.toNat 0 s.idx.toNat best) :
    tracebackBatches best mtb s = tracebackBatches best mtb u := by
  unfold tracebackBatches
  rw [← hp, ← hi, ← hl, ← hf]
  split
  · rename_i legal
    rw [hw legal.2.1]
  · rfl

/-- Two walks agree if their histories do wherever the walk can be: `R` is kept by every step, by whatever entry. -/
theorem walk_congr {R : Nat → Nat → Prop} (hp : s.params = u.params)
    (read : ∀ pos st, R pos st →
      readEntry s (stepBack s.params.cap pos) st = readEntry u (stepBack s.params.cap pos) st)
    (next : ∀ pos st d, R pos st → R (stepBack s.params.cap pos) (pathStep s.params.highbit st d)) :
    ∀ k j pos st, R pos st → walk s mtb k j pos st = walk u mtb k j pos st := by
  intro k
  induction k with
  | zero => intros; rfl
  | succ k ih =>
    intro j pos st h
    simp only [walk, ← hp, ← read pos st h, ih _ _ _ (next pos st _ h)]

end

/-- Settles O34: the histories agree everywhere. -/
theorem tracebackIsDeterministic : Obligations.TracebackIsDeterministic := by
  intro s u s' u' best mtb hp hh hi hl hf hs hu
  have read (p st : Nat) : readEntry s p st = readEntry u p st := by simp only [readEntry, slice, hh]
  have walks := walk_congr (R := fun _ _ => True) (mtb := mtb) hp (fun _ _ _ => read _ _) (fun _ _ _ _ => trivial)
  refine ⟨_, batches_dhTraceback hs, ?_⟩
  rw [batches_dhTraceback hu, tracebackBatches_congr hp hi hl hf fun _ => walks _ _ _ _ trivial]

/-- A step of the walk halves a number of `S` bits (R167). -/
theorem pathStep_lt (p : Params) {st : Nat} (d : Entry) (h : st < p.numStates) :
    pathStep p.highbit st d < max (p.numStates / 2) 1 := by
  have pos : 0 < p.numStates := Nat.two_pow_pos _
  have high : (if isSet d then p.highbit else 0) < p.numStates := by
    rw [Params.highbit, Nat.shiftRight_eq_div_pow]
    split <;> omega
  have wide : st ||| (if isSet d then p.highbit else 0) < p.numStates := Nat.or_lt_two_pow h high
  have even : p.numStates = 1 ∨ 2 ∣ p.numStates := (Nat.eq_zero_or_pos p.logStates).imp
    (fun h0 => by simp [Params.numStates, h0]) (fun h1 => dvd_pow_self 2 (Nat.pos_iff_ne_zero.mp h1))
  rw [pathStep, Nat.shiftRight_eq_div_pow]
  omega

/-- Where the walk of a traceback can be: at `best` before its first step, and at one of the low states ever after. -/
def WalkReaches (s : State) (best pos st : Nat) : Prop :=
  pos < s.params.cap ∧ st < s.params.numStates ∧
    (st < max (s.params.numStates / 2) 1 ∨ pos = s.idx.toNat ∧ st = best)

theorem stepBack_lt {cap pos : Nat} (h : pos < cap) : stepBack cap pos < cap := by
  unfold stepBack
  split <;> omega

theorem WalkReaches.next {s : State} {best pos st : Nat} (d : Entry) (h : WalkReaches s best pos st) :
    WalkReaches s best (stepBack s.params.cap pos) (pathStep s.params.highbit st d) := by
  obtain ⟨hpos, hst, -⟩ := h
  have low := pathStep_lt s.params d hst
  have : 0 < s.params.numStates := Nat.two_pow_pos _
  exact ⟨stepBack_lt hpos, by omega, .inl low⟩

/-- Settles O33: the histories agree wherever the walk can be, which at `best` is the newest slice. -/
theorem walkStaysInRange : Obligations.WalkStaysInRange := by
  refine ⟨fun p st d => pathStep_lt p d, fun s u s' u' best mtb hp hi hl hf hidx hlen agree hs hu => ?_⟩
  have read (pos st : Nat) (h : WalkReaches s best pos st) :
      readEntry s (stepBack s.params.cap pos) st = readEntry u (stepBack s.params.cap pos) st := by
    obtain ⟨hpos, -, hlow | ⟨rfl, rfl⟩⟩ := h
    · exact agree _ _ (stepBack_lt hpos) (.inl hlow)
    · exact agree _ _ (stepBack_lt hpos) (.inr ⟨stepBack_walkPosition hidx, rfl⟩)
  have walks := walk_congr (mtb := mtb) hp read (fun _ _ d h => h.next d)
  refine ⟨_, batches_dhTraceback hs, ?_⟩
  rw [batches_dhTraceback hu,
    tracebackBatches_congr hp hi hl hf fun hb => walks _ _ _ _ ⟨hidx, hb, .inr ⟨rfl, rfl⟩⟩]

/-! ## The process (R171 to R175) -/

/-- The three increments, written on the counters as numbers. -/
theorem commitSlice_eq (s : State) : commitSlice s = { s with
    idx := BitVec.ofNat 16 (if s.idx.toNat + 1 = s.params.cap then 0 else s.idx.toNat + 1)
    len := BitVec.ofNat 16 (s.len.toNat + 1)
    rcnt := BitVec.ofNat 32 (s.rcnt.toNat + 1) } := by
  have succ {n : Nat} (v : BitVec n) : BitVec.ofNat n (v.toNat + 1) = v + 1 := by
    rw [BitVec.ofNat_add, BitVec.ofNat_toNat, BitVec.setWidth_eq]
    rfl
  rw [succ, succ, apply_ite (BitVec.ofNat 16), succ]
  rfl

section
variable {c : State} {skip : Nat} {w : Bool}

theorem procActions_neither (hr : c.rcnt.toNat ≠ c.params.renormInterval) (hl : c.len.toNat ≠ c.params.cap) :
    procActions skip w c = (c, 0) := by
  rw [procActions, if_neg hr, if_neg hl]

theorem procActions_renormalize (hr : c.rcnt.toNat = c.params.renormInterval) (hl : c.len.toNat ≠ c.params.cap) :
    procActions skip w c = (renormalize w (search c w skip) { c with rcnt := 0 }, 0) := by
  rw [procActions, if_pos hr, if_neg hl]

theorem procActions_both (hr : c.rcnt.toNat = c.params.renormInterval) (hl : c.len.toNat = c.params.cap) :
    procActions skip w c = traceback (search c w skip) c.params.minTb
      (renormalize w (search c w skip) { c with rcnt := 0 }) := by
  rw [procActions, if_pos hr, if_pos hl]

theorem procActions_traceback (hr : c.rcnt.toNat ≠ c.params.renormInterval) (hl : c.len.toNat = c.params.cap) :
    procActions skip w c = traceback (search c w skip) c.params.minTb c := by
  rw [procActions, if_neg hr, if_pos hl]

end

theorem exec_dhProcskip {s : State} {skip : Nat} (hf : s.fault = false) (hs : 1 ≤ skip) (w : Bool) :
    exec (.dhProcskip skip w) s = .next (respondCount (procskip skip w s)) :=
  exec_completes hf (checkStride_ok hs)

/-- Settles O35: which action is due goes by the two counters after the increments; a traceback that is due passes the
checks of `DH.TRACEBACK`, as the search answers a state and `MIN_TB` is below `CAP`. -/
theorem processTakesOneOfFourActions : Obligations.ProcessTakesOneOfFourActions := by
  refine ⟨decode_of_takesASel rfl, fun s c skip w hf hinv hc => ?_⟩
  obtain rfl : c = commitSlice s := hc.trans (commitSlice_eq s).symm
  obtain ⟨-, hl, hr⟩ := commitSlice_ranges hinv.idx_lt hinv.len_lt hinv.rcnt_lt
  have warm (hcap : s.len.toNat + 1 = s.params.cap) : s.params.minTb ≤ (commitSlice s).len.toNat := by
    rw [hl, hcap]
    exact Nat.le_add_right _ _
  refine ⟨?_, fun hs hri hcap => ?_, fun hs hri hcap => ?_, fun hs hri hcap => ?_, fun hs hri hcap => ?_⟩
  · rintro rfl
    exact exec_violation hf rfl
  · rw [exec_dhProcskip hf hs, procskip, procActions_neither (hr ▸ hri) (hl ▸ hcap.ne)]
    rfl
  · rw [exec_dhProcskip hf hs, procskip, procActions_renormalize (hr ▸ hri) (hl ▸ hcap.ne)]
    rfl
  · rw [exec_dhProcskip hf hs, procskip, procActions_both (hr ▸ hri) (hl ▸ hcap),
      exec_dhTraceback (by simpa using hf) (by simpa using search_lt (commitSlice s) w hs) (by simpa using warm hcap)]
    rfl
  · rw [exec_dhProcskip hf hs, procskip, procActions_traceback (hr ▸ hri) (hl ▸ hcap),
      exec_dhTraceback (s := commitSlice s) hf (search_lt (commitSlice s) w hs) (warm hcap)]
    rfl

/-- A process renormalizes at most `BUF(W)`, so the other buffer stays. -/
theorem readMetric_procskip_other (skip : Nat) (w : Bool) (s : State) (i : Nat) :
    readMetric (procskip skip w s).1 (!w) i = readMetric s (!w) i := by
  obtain ⟨l, m, c, o, e, -⟩ := procskip_frame skip w s
  rw [e]
  exact congrArg (readElem · i) (buf_setBuf_other w l s)

/-- Settles O36: the counts of a process, and the pieces it does not touch. -/
theorem processCountsAndEmits : Obligations.ProcessCountsAndEmits := by
  intro s skip w hf hinv hs
  have completes := exec_dhProcskip hf hs w
  obtain ⟨hi, hl, hr, hn⟩ := procskip_counts hinv.idx_lt hinv.len_lt hinv.rcnt_lt skip w
  have emitted : (respondCount (procskip skip w s)).out.length =
      s.out.length + if s.len.toNat + 1 = s.params.cap then s.params.tbGroup else 0 := by
    rw [out_respondCount, procskip_out_length, hn]
  have answer : (respondCount (procskip skip w s)).outputs.getLast? = some (.response
      { st := 0x00, r := BitVec.ofNat 32 (if s.len.toNat + 1 = s.params.cap then s.params.tbGroup else 0) }) := by
    rw [respondCount, respond_outputs, List.getLast?_concat, hn]
    rfl
  exact ⟨_, completes, (procskip_fault skip w s).trans hf, inv_exec hinv completes, procskip_params skip w s, hi, hl,
    hr, emitted, answer, procskip_hist skip w s, procskip_sel skip w s, readMetric_procskip_other skip w s,
    procskip_tbl skip w s, procskip_keys skip w s, procskip_outs skip w s, procskip_outlen skip w s,
    procskip_dist skip w s, procskip_sym skip w s, procskip_built skip w s, procskip_fcode skip w s,
    procskip_input skip w s⟩

/-- Settles O37: the two commands have one effect, and a stride of 1 passes the check that `DH.PROC` does not make. -/
theorem processIsStrideOne : Obligations.ProcessIsStrideOne := by
  refine ⟨decode_of_takesSel rfl, fun s w => ⟨rfl, fun hf => ?_⟩⟩
  have completes : exec (.dhProc w) s = .next (respondCount (procskip 1 w s)) := exec_completes hf rfl
  exact ⟨_, completes, (procskip_fault 1 w s).trans hf, procskip_params 1 w s, procskip_sel 1 w s,
    procskip_hist 1 w s, procskip_tbl 1 w s, procskip_keys 1 w s, procskip_outs 1 w s, procskip_outlen 1 w s,
    procskip_dist 1 w s, procskip_sym 1 w s, procskip_built 1 w s, procskip_fcode 1 w s, procskip_input 1 w s,
    readMetric_procskip_other 1 w s⟩

/-! ## The flush, and the conservation of bits over a run (R177, R179) -/

/-- Settles O38: both operands of the traceback are in range, so neither command is refused but while faulted. -/
theorem flushDrainsFromZero : Obligations.FlushDrainsFromZero := by
  refine ⟨decode_of_takesNone rfl, fun s => ?_, fun s hf hi hl => ?_⟩
  · have legal : violation (.dhTraceback 0 0) s = none :=
      violation_dhTraceback_ok (Nat.two_pow_pos _) (Nat.zero_le _)
    rw [exec_eq_command, exec_eq_command, legal]
    rfl
  · have completes : exec .dhFlush s = .next (respondCount (traceback 0 0 s)) := exec_completes hf rfl
    rw [completes, respondCount_traceback hi hl (Nat.zero_le _), Nat.sub_zero, BitVec.ofNat_toNat]
    rfl

theorem runCommands_answers (cs : List Instr) (s : State) : ∃ t, runCommands cs s = .next t := by
  induction cs generalizing s with
  | nil => exact ⟨s, rfl⟩
  | cons i cs ih =>
    obtain ⟨u, hu⟩ := exec_answers i s
    obtain ⟨t, ht⟩ := ih u
    exact ⟨t, by simp only [runCommands, hu, ht]⟩

theorem runCommands_cons {i : Instr} {cs : List Instr} {s t : State} (h : runCommands (i :: cs) s = .next t) :
    ∃ u, exec i s = .next u ∧ runCommands cs u = .next t := by
  obtain ⟨u, hu⟩ := exec_answers i s
  simp only [runCommands, hu] at h
  exact ⟨u, hu, h⟩

/-- A run that ends not faulted never was: no command leaves the fault (R244). -/
theorem runCommands_not_faulted {cs : List Instr} {s t : State} (h : runCommands cs s = .next t)
    (ht : t.fault = false) : s.fault = false := by
  induction cs generalizing s with
  | nil =>
    cases h
    exact ht
  | cons i cs ih =>
    obtain ⟨u, hu, hrest⟩ := runCommands_cons h
    exact (exec_of_not_faulted hu (ih hrest)).1

/-- `|OUT| + LEN` over a run without `DH.RESET`: one more for each process in it. -/
theorem runCommands_bitCount {cs : List Instr} {s t : State} (hinv : Inv s) (hcs : ∀ i ∈ cs, i ≠ .dhReset)
    (h : runCommands cs s = .next t) (ht : t.fault = false) :
    bitCount t = bitCount s + cs.countP commits := by
  induction cs generalizing s with
  | nil =>
    cases h
    rfl
  | cons i cs ih =>
    obtain ⟨u, hu, hrest⟩ := runCommands_cons h
    obtain ⟨hi, hcs⟩ := List.forall_mem_cons.mp hcs
    have first := exec_bitCount hinv hu (runCommands_not_faulted hrest ht) hi
    rw [ih (inv_exec hinv hu) hcs hrest, first, List.countP_cons]
    omega

/-- Settles O39: the run starts with no slice that waits, and its flush leaves none. -/
theorem bitsAreConserved : Obligations.BitsAreConserved := by
  intro cs s t hinv hf h0 hcs h ht
  have kept (i : Instr) (hi : i ∈ cs ++ [.dhFlush]) : i ≠ .dhReset := by
    rintro rfl
    obtain hi | hi := List.mem_append.mp hi
    · exact absurd (hcs _ hi) (by decide)
    · cases List.mem_singleton.mp hi
  have conserved := runCommands_bitCount hinv kept h ht
  obtain ⟨u, hu⟩ := runCommands_answers cs s
  have flush : exec .dhFlush u = .next t := by
    obtain ⟨v, hv, hrest⟩ := runCommands_cons ((runCommands_append hu).symm.trans h)
    cases hrest
    exact hv
  have empty : t.len.toNat = 0 := by
    obtain ⟨-, -, rfl⟩ := exec_of_not_faulted flush ht
    exact (traceback_len 0 0 u).trans (Nat.zero_min _)
  have start : s.len.toNat = 0 := congrArg BitVec.toNat h0
  simpa [bitCount, empty, start, commits] using conserved

end Sys2Proof.Machine

/-! The branch-metric table's statements (spec/42_bmt_commands.md): the writes and reads of the two staging arrays, the
build and its laws, the lookups in the built table, and the fill. -/

namespace Sys2Proof.Machine

/-! ## The staging arrays: `TBL` and `SYM` (R191, R192, R202, R203) -/

section
variable {s : State} {e : Nat} {c : BitVec 16}

theorem violation_bmTblwr_ok (he : e < s.params.tblSize) (hc : c.toNat < s.params.numSymbols) :
    violation (.bmTblwr e c) s = none := by
  rw [violation, checkIndex_ok he, firstOf_none, checkCodeword_ok hc]

theorem violation_bmTblwr_index (he : s.params.tblSize ≤ e) : violation (.bmTblwr e c) s = some .index := by
  rw [violation, checkIndex_bad he, firstOf_some]

theorem violation_bmTblwr_value (he : e < s.params.tblSize) (hc : s.params.numSymbols ≤ c.toNat) :
    violation (.bmTblwr e c) s = some .value := by
  rw [violation, checkIndex_ok he, firstOf_none, checkCodeword_bad hc]

end

/-- `RATE` is at most 8, so a codeword in range loses nothing in its 8-bit element (R8, R191). -/
theorem toNat_setWidth_codeword {p : Params} {c : BitVec 16} (hc : c.toNat < p.numSymbols) :
    (c.setWidth 8).toNat = c.toNat := by
  have byte : p.numSymbols ≤ 2 ^ 8 := Nat.pow_le_pow_right (by decide) p.legal.2.2.2.2.1.2
  rw [BitVec.toNat_setWidth]
  exact Nat.mod_eq_of_lt (Nat.lt_of_lt_of_le hc byte)

/-- Settles O41: the effect is one `writeElem` of `TBL`, behind the index check and then the codeword check. -/
theorem tableWriteStoresOneCodeword : Obligations.TableWriteStoresOneCodeword := by
  refine ⟨decode_of_takesAB rfl, fun s e c hf hm => ⟨fun he hc => ?_, fun he => ?_, fun he hc => ?_⟩⟩
  · have legal : violation (.bmTblwr e c) s = none := violation_bmTblwr_ok he hc
    obtain ⟨-, -, -, -, length, -⟩ := (memory_wf_iff s).mp hm
    have stored : (readElem (writeElem s.tbl e (c.setWidth 8)) e).toNat = c.toNat := by
      rw [readElem_writeElem_same (length ▸ he), toNat_setWidth_codeword hc]
    have kept (j : Nat) (hj : j ≠ e) := readElem_writeElem_ne s.tbl hj.symm (c.setWidth 8)
    exact ⟨_, exec_completes hf legal, stored, kept, rfl, memory_wf_effect hm legal, rfl⟩
  · exact exec_violation hf (violation_bmTblwr_index he)
  · exact exec_violation hf (violation_bmTblwr_value he hc)

/-- Settles O42: each read completes or faults by its index check alone. -/
theorem stagingReadsAnswerEntry : Obligations.StagingReadsAnswerEntry :=
  ⟨decode_of_takesA rfl, decode_of_takesA rfl, fun _ _ hf =>
    ⟨fun h => exec_completes hf (checkIndex_ok h), fun h => exec_violation hf (checkIndex_bad h),
      fun h => exec_completes hf (checkIndex_ok h), fun h => exec_violation hf (checkIndex_bad h)⟩⟩

/-- Settles O43: the effect is one `writeElem` of `SYM` behind one index check. -/
theorem symbolWriteStoresOneDistance : Obligations.SymbolWriteStoresOneDistance := by
  refine ⟨decode_of_takesAB rfl, fun s n d hf hm => ⟨fun h => ?_, fun h => ?_⟩⟩
  · obtain ⟨-, -, -, -, -, -, -, -, -, -, length⟩ := (memory_wf_iff s).mp hm
    have stored : readElem (writeElem s.sym n d) n = d := readElem_writeElem_same (length ▸ h) d
    have kept (j : Nat) (hj : j ≠ n) := readElem_writeElem_ne s.sym hj.symm d
    exact ⟨_, exec_completes hf (checkIndex_ok h), stored, kept, rfl, memory_wf_writeSymbol hm n d, rfl⟩
  · exact exec_violation hf (checkIndex_bad h)

/-! ## The build (R196 to R199) -/

theorem exec_bmBuild {s : State} (hf : s.fault = false) :
    exec .bmBuild s = .next (respond ((buildTable s).outlen.setWidth 32) (buildTable s)) :=
  exec_completes hf rfl

/-- Settles O44: the loop of P196 in closed form, whose count fits `OUTLEN`. -/
theorem buildAssignsSlotsInOrder : Obligations.BuildAssignsSlotsInOrder := by
  refine ⟨decode_of_takesNone rfl, fun s hf hm => ?_⟩
  have count : (buildTable s).outlen.setWidth 32 = BitVec.ofNat 32 (1 + (firstSeen (pairList s)).length) := by
    rw [← BitVec.ofNat_toNat, outlen_buildTable hm]
  rw [exec_bmBuild hf, count, buildTable, buildLoop_eq hm]
  rfl

/-- The first value of a list is the first of its distinct values. -/
theorem idxOf_firstSeen_head (v : PairValue) (l : List PairValue) : (firstSeen (v :: l)).idxOf v = 0 := by
  induction l using List.reverseRecOn with
  | nil => simp [firstSeen]
  | append_singleton l x ih =>
    have hv : v ∈ firstSeen (v :: l) := (mem_firstSeen _ _).mpr List.mem_cons_self
    rw [← List.cons_append, firstSeen_append_singleton]
    split
    · exact ih
    · rw [List.idxOf_append_of_mem hv, ih]

/-- Pair 0 is the first pair visited. -/
theorem pairList_eq_cons (s : State) : ∃ l, pairList s = pairNumber s 0 :: l := by
  obtain ⟨n, hn⟩ : ∃ n, s.params.numPairs = n + 1 := Nat.exists_eq_add_one.mpr (Nat.two_pow_pos _)
  rw [pairList, hn, List.range_succ_eq_map]
  exact ⟨_, rfl⟩

/-- `KEYS[0]` after a build is 1 (R198): pair 0's value is the first met. -/
theorem keys_zero_buildTable {s : State} (h : Memory.wf s = true) : (readElem (buildTable s).keys 0).toNat = 1 := by
  obtain ⟨l, hl⟩ := pairList_eq_cons s
  rw [keys_buildTable h (Nat.two_pow_pos _), hl, idxOf_firstSeen_head]

/-- Settles O45: the built table meets the invariant of R35 to R38, each key leads to its pair's value, and pair 0's
value is the first one met. -/
theorem buildLaws : Obligations.BuildLaws := by
  intro s t hf hm h
  rw [exec_bmBuild hf] at h
  cases h
  obtain ⟨⟨least, most⟩, keys_range, -, distinct, -⟩ := tableInv_buildTable hm
  refine ⟨fun p hp => ?_, distinct, least, most, keys_zero_buildTable hm⟩
  obtain ⟨positive, used⟩ := keys_range p hp
  obtain ⟨-, value, -⟩ := pairValue_facts hm p
  exact ⟨positive, used, (congrArg BitVec.toNat (outs_keys_buildTable hm hp)).trans value⟩

/-- The loop of P196 reads `TBL` and the parameters only. -/
theorem buildLoop_congr {s u : State} (hp : s.params = u.params) (ht : s.tbl = u.tbl) : buildLoop s = buildLoop u := by
  have values : pairValue s = pairValue u := by
    funext p
    rw [pairValue, pairValue, hp, ht]
  rw [buildLoop, buildLoop, pairValues, pairValues, values, hp]

/-- Settles O46: the five pieces a build replaces come from its loop and the parameters. -/
theorem buildDependsOnTableOnly : Obligations.BuildDependsOnTableOnly := by
  intro s u s' u' hp ht hs hu h h'
  rw [exec_bmBuild hs] at h
  rw [exec_bmBuild hu] at h'
  cases h
  cases h'
  simp [buildLoop_congr hp ht, hp]

/-! ## The lookups in the built table (R200, R208, R209) -/

section
variable {s : State} {i bound : Nat}

theorem checkBuilt_checkIndex_ok (hb : s.built = true) (hi : i < bound) :
    firstOf (checkBuilt s) (checkIndex i bound) = none := by
  rw [checkBuilt_ok hb, firstOf_none, checkIndex_ok hi]

theorem checkBuilt_checkIndex_notBuilt (hb : s.built = false) :
    firstOf (checkBuilt s) (checkIndex i bound) = some .notBuilt := by
  rw [checkBuilt_bad hb, firstOf_some]

theorem checkBuilt_checkIndex_index (hb : s.built = true) (hi : bound ≤ i) :
    firstOf (checkBuilt s) (checkIndex i bound) = some .index := by
  rw [checkBuilt_ok hb, firstOf_none, checkIndex_bad hi]

end

/-- Settles O47: the read is behind `BUILT` and then the index; the invariant gives the key's range. -/
theorem keyLookupAnswersKey : Obligations.KeyLookupAnswersKey := by
  refine ⟨decode_of_takesA rfl, fun s p hf => ⟨fun hb hp => ⟨?_, fun hinv => ?_⟩, fun hb => ?_, fun hb hp => ?_⟩⟩
  · exact exec_completes hf (checkBuilt_checkIndex_ok hb hp)
  · obtain ⟨positive, -⟩ := (hinv.table hb).keys_range p hp
    exact Nat.one_le_iff_ne_zero.mp positive
  · exact exec_violation hf (checkBuilt_checkIndex_notBuilt hb)
  · exact exec_violation hf (checkBuilt_checkIndex_index hb hp)

/-- Settles O48: both reads are behind `BUILT` and then the index; the invariant gives the sentinel slot. -/
theorem slotLookupsAnswerSlot : Obligations.SlotLookupsAnswerSlot := by
  refine ⟨decode_of_takesA rfl, decode_of_takesA rfl, fun s k hf => ⟨fun hb hk => ?_, fun hb => ?_, fun hb hk => ?_⟩⟩
  · have legal := checkBuilt_checkIndex_ok hb hk
    refine ⟨exec_completes hf legal, exec_completes hf legal, ?_⟩
    rintro hinv rfl
    exact (hinv.table hb).sentinel.symm
  · have early := checkBuilt_checkIndex_notBuilt (i := k) (bound := s.outlen.toNat) hb
    exact ⟨exec_violation hf early, exec_violation hf early⟩
  · have out := checkBuilt_checkIndex_index hb hk
    exact ⟨exec_violation hf out, exec_violation hf out⟩

/-! ## The fill, and the round trip after a build (R205, R206) -/

/-- A slot of `OUTS` is two codewords of `RATE` bits, so its high part is a symbol as it stands (R36). -/
theorem outs_high_lt {s : State} (hm : Memory.wf s = true) (k : Nat) :
    (readElem s.outs k).toNat / 2 ^ s.params.rate < 2 ^ s.params.rate := by
  obtain ⟨-, -, -, -, -, -, -, -, range, -⟩ := (memory_wf_iff s).mp hm
  have fits : (readElem s.outs k).toNat < 2 ^ (2 * s.params.rate) :=
    readElem_of_forall (P := fun v => v.toNat < 2 ^ (2 * s.params.rate)) range (Nat.two_pow_pos _) k
  rw [Nat.two_mul, pow_add] at fits
  exact Nat.div_lt_of_lt_mul fits

/-- The lanes of a used slot after a fill (R205, R210). -/
theorem lanes_fillDistances {s : State} (hm : Memory.wf s = true) (ht : TableInv s) {k : Nat} (h1 : 1 ≤ k)
    (hk : k < s.outlen.toNat) :
    laneLow (readElem (fillDistances s).dist k) = readElem s.sym ((readElem s.outs k).toNat % 2 ^ s.params.rate) ∧
    laneHigh (readElem (fillDistances s).dist k) = readElem s.sym ((readElem s.outs k).toNat / 2 ^ s.params.rate) := by
  obtain ⟨-, -, -, -, -, -, -, -, -, length, -⟩ := (memory_wf_iff s).mp hm
  have held : k < s.dist.length := length ▸ Nat.lt_of_lt_of_le hk ht.outlen_range.2
  rw [dist_fillDistances, if_pos ⟨h1, hk, held⟩, slotDistance_eq, Nat.mod_eq_of_lt (outs_high_lt hm k)]
  exact ⟨laneLow_packDistance _ _, laneHigh_packDistance _ _⟩

/-- A fill writes the used slots only, slot 0 not among them (R205). -/
theorem dist_fillDistances_kept {s : State} {k : Nat} (h : k = 0 ∨ s.outlen.toNat ≤ k) :
    readElem (fillDistances s).dist k = readElem s.dist k := by
  rw [dist_fillDistances, if_neg (by omega)]

/-- Settles O49: the effect is `fillDistances` behind the check of `BUILT`; the invariant gives the slots it leaves. -/
theorem fillPacksSymbolDistances : Obligations.FillPacksSymbolDistances := by
  refine ⟨decode_of_takesNone rfl, fun s hf hinv => ⟨fun hb => ?_, fun hb => exec_violation hf (checkBuilt_bad hb)⟩⟩
  have ht := hinv.table hb
  have lanes (k : Nat) (h1 : 1 ≤ k) (hk : k < s.outlen.toNat) := lanes_fillDistances hinv.memory ht h1 hk
  have sentinel := dist_fillDistances_kept (s := s) (.inl rfl)
  have unused (k : Nat) (hk : s.outlen.toNat ≤ k) := dist_fillDistances_kept (s := s) (.inr hk)
  exact ⟨_, exec_completes hf (checkBuilt_ok hb), lanes, sentinel, sentinel.trans ht.sentinel.2,
    fun k hk => ⟨unused k hk, (unused k hk).trans (ht.unused k hk).2⟩, rfl, memory_wf_fillDistances hinv.memory, rfl⟩

/-- The two codewords of a pair, out of its value (R196). -/
theorem pairNumber_split {s : State} (hm : Memory.wf s = true) (p : Nat) :
    (pairNumber s p).toNat % 2 ^ s.params.rate = (readElem s.tbl (2 * p)).toNat ∧
    (pairNumber s p).toNat / 2 ^ s.params.rate = (readElem s.tbl (2 * p + 1)).toNat := by
  obtain ⟨-, -, -, -, -, range, -⟩ := (memory_wf_iff s).mp hm
  have low : (readElem s.tbl (2 * p)).toNat < 2 ^ s.params.rate :=
    readElem_of_forall (P := fun c => c.toNat < 2 ^ s.params.rate) range (Nat.two_pow_pos _) (2 * p)
  obtain ⟨-, value, -⟩ := pairValue_facts hm p
  rw [value, Nat.add_comm, Nat.add_mul_mod_self_right, Nat.add_mul_div_right _ _ (Nat.two_pow_pos _)]
  exact ⟨Nat.mod_eq_of_lt low, by rw [Nat.div_eq_of_lt low, Nat.zero_add]⟩

/-- The lanes under pair `p`'s key after a build and a fill (R206). -/
theorem lanes_fillDistances_buildTable {s : State} (hm : Memory.wf s = true) {p : Nat} (hp : p < s.params.numPairs) :
    let v := readElem (fillDistances (buildTable s)).dist (readElem (buildTable s).keys p).toNat
    laneLow v = readElem s.sym (readElem s.tbl (2 * p)).toNat ∧
    laneHigh v = readElem s.sym (readElem s.tbl (2 * p + 1)).toNat := by
  have ht := tableInv_buildTable hm
  obtain ⟨positive, used⟩ := ht.keys_range p hp
  obtain ⟨low, high⟩ := lanes_fillDistances (memory_wf_buildTable hm) ht positive used
  obtain ⟨even, odd⟩ := pairNumber_split hm p
  rw [outs_keys_buildTable hm hp, buildTable_params] at low high
  exact ⟨low.trans (congrArg _ even), high.trans (congrArg _ odd)⟩

/-- Settles O50: the answer of the build is no input to the fill, and the build leaves `BUILT` set. -/
theorem buildThenFillRoundTrip : Obligations.BuildThenFillRoundTrip := by
  intro s hf hm
  have built : exec .bmBuild s = .next (effect .bmBuild s) := exec_completes hf rfl
  have filled : exec .bmFill (effect .bmBuild s) = .next (effect .bmFill (effect .bmBuild s)) :=
    exec_completes hf rfl
  have ran : runCommands [.bmBuild, .bmFill] s = .next (effect .bmFill (effect .bmBuild s)) := by
    simp only [runCommands, built, filled]
  exact ⟨_, ran, fun p hp => lanes_fillDistances_buildTable hm hp⟩

end Sys2Proof.Machine

/-! The system commands' statements (spec/43_sys_commands.md): every step answers, `SYS.NOP` only answers, and
`SYS.RDREG` reads the register map of R48. -/

namespace Sys2Proof.Machine

/-! ## Every step answers (R112, R225) -/

/-- Settles O10, by what is presented: nothing, `RST`, or a word, which is a command or a rejection. -/
theorem stepAlwaysAnswers : Obligations.StepAlwaysAnswers := by
  intro s
  cases hi : s.input with
  | nil => exact ⟨s, step_idle hi⟩
  | cons x rest =>
    cases x with
    | rst => exact ⟨_, step_rst hi⟩
    | cmd w =>
      rw [step_cmd hi]
      cases decode w with
      | command i => exact exec_answers i _
      | rejected r => exact ⟨rejectWord r _, rfl⟩

/-! ## The register map (R48) -/

/-- A 1-bit register reads as 0 or 1. -/
theorem setWidth_ofBool (b : Bool) : (BitVec.ofBool b).setWidth 32 = BitVec.ofNat 32 (if b then 1 else 0) := by
  cases b <;> rfl

/-- Every row of R48's table is what `REGMAP` reads: the scalars zero-extended, the parameters as numbers. -/
theorem regValue_of_mem {s : State} {r v : Nat} (h : (r, v) ∈ registerTable s) :
    regValue s r = some (BitVec.ofNat 32 v) := by
  have zext {n : Nat} (x : BitVec n) : some (x.setWidth 32) = some (BitVec.ofNat 32 x.toNat) := by
    rw [BitVec.ofNat_toNat]
  have bit (b : Bool) := congrArg some (setWidth_ofBool b)
  have rcnt : some s.rcnt = some (BitVec.ofNat 32 s.rcnt.toNat) := by rw [← zext, BitVec.setWidth_eq]
  have rows : ∀ row ∈ registerTable s, regValue s row.1 = some (BitVec.ofNat 32 row.2) := by
    simp only [registerTable, List.forall_mem_append, List.forall_mem_cons, List.not_mem_nil, false_implies,
      implies_true, and_true]
    exact ⟨⟨bit s.sel, zext s.idx, zext s.len, rcnt, zext s.outlen, bit s.built⟩,
      rfl, rfl, rfl, rfl, rfl, rfl, rfl, rfl, rfl, bit s.params.rstClearsRcnt⟩
  exact rows _ h

/-- `REGMAP` reads nothing else: each number it knows has a row in R48's table. -/
theorem regValue_of_not_mem {s : State} {r : Nat} (h : ∀ v, (r, v) ∉ registerTable s) : regValue s r = none := by
  unfold regValue
  split
  case h_17 => rfl
  all_goals simp [registerTable] at h

theorem checkRegister_ok {s : State} {r : Nat} {x : BitVec 32} (h : regValue s r = some x) :
    checkRegister s r = none := by simp [checkRegister, h]

theorem checkRegister_bad {s : State} {r : Nat} (h : regValue s r = none) : checkRegister s r = some .index := by
  simp [checkRegister, h]

/-! ## The two commands (R221, R222) -/

/-- Settles O19: the read completes exactly on the numbers of the table, and its answer is the row's value. -/
theorem registerReadAnswersTable : Obligations.RegisterReadAnswersTable := by
  refine ⟨decode_of_takesA rfl, fun s hf => ⟨fun r v h => ?_, fun r h => ?_⟩⟩
  · have value := regValue_of_mem h
    have completes : exec (.sysRdreg r) s = .next (effect (.sysRdreg r) s) := exec_completes hf (checkRegister_ok value)
    rw [completes, effect, value]
    rfl
  · exact exec_violation hf (checkRegister_bad (regValue_of_not_mem h))

/-- Settles O18: `SYS.NOP` checks nothing, and its effect is its answer. -/
theorem nopOnlyAnswers : Obligations.NopOnlyAnswers :=
  ⟨decode_of_takesNone rfl, fun _ => ⟨fun hf => exec_completes hf rfl, fun hf => exec_faulted .sysNop hf⟩⟩

end Sys2Proof.Machine

/-! The exceptions' statements (spec/60_exceptions.md): which words are rejected and why, what a rejected word, a
faulted block and a faulting command do, and the order of the checks. -/

namespace Sys2Proof.Machine

/-! ## Which words are rejected, and why (R232, R235) -/

theorem orReserved_ne_illegalOp (c : Bool) (i : Instr) : orReserved c i ≠ .rejected .illegalOp := by
  cases c <;> nofun

/-- A word's opcode is unknown exactly if it has no row in R105's table: case `h_n` is row `n` of `decodeFields`, which
accepts or finds a reserved bit, and the last one its rejection of every other opcode (R232). -/
theorem decodeFields_eq_illegalOp_iff {op : Nat} {a : BitVec 24} {b : BitVec 16} :
    decodeFields op a b = .rejected .illegalOp ↔ op ∉ opcodeRows.map fun row => row.1.toNat := by
  unfold decodeFields
  split
  case h_6 | h_8 | h_14 | h_18 | h_22 => exact iff_of_false nofun (by decide)
  case h_27 => exact iff_of_true rfl (by simp_all [opcodeRows])
  all_goals exact iff_of_false (orReserved_ne_illegalOp _ _) (by decide)

/-- A mask over field `B` alone finds in a word what it finds in the word's field `B`. -/
theorem commandWord_and_maskB (op : BitVec 8) (a : BitVec 24) {b m : BitVec 16} (h : b &&& m = 0) :
    commandWord op a b &&& commandWord 0 0 m = 0 := by
  calc commandWord op a b &&& commandWord 0 0 m = commandWord (op &&& 0) (a &&& 0) (b &&& m) :=
        BitVec.and_append.trans (congrArg (_ ++ ·) BitVec.and_append)
    _ = commandWord 0 0 0 := by simp [h]
    _ = 0 := rfl

/-- No command's word has a bit that its row reserves (R105), by the shape of the operands. -/
theorem encode_and_reserved {i : Instr} {m : CommandWord} (h : (opcode i, m) ∈ opcodeRows) : encode i &&& m = 0 := by
  cases i with
  | sysNop | pmReset | pmSwap | dhReset | dhFlush | bmBuild | bmFill =>
    obtain rfl : m = 0x00FFFFFFFFFF := by simpa [opcodeRows, opcode] using h
    decide
  | sysRdreg | pmRdc | pmRdo | dhSlrd | bmTblrd | bmGetkey | bmSymrd | bmGetdist | bmGetout =>
    obtain rfl : m = 0x00000000FFFF := by simpa [opcodeRows, opcode] using h
    exact commandWord_and_maskB (m := 0xFFFF) _ _ BitVec.zero_and
  | pmWrc | pmWro | bmTblwr | bmSymwr | dhTraceback =>
    obtain rfl : m = 0 := by simpa [opcodeRows, opcode] using h
    exact BitVec.and_zero
  | dhSlwr st v =>
    obtain rfl : m = 0x00000000FF00 := by simpa [opcodeRows, opcode] using h
    have clear : ∀ v : BitVec 8, v.setWidth 16 &&& 0xFF00 = 0 := by decide
    exact commandWord_and_maskB (m := 0xFF00) _ _ (clear v)
  | dhSearch n w | dhRenorm n w | dhProcskip n w =>
    obtain rfl : m = 0x00000000FFFE := by simpa [opcodeRows, opcode] using h
    have clear : selectorB w &&& 0xFFFE = 0 := by cases w <;> rfl
    exact commandWord_and_maskB (m := 0xFFFE) _ _ clear
  | dhProc w =>
    obtain rfl : m = 0x00FFFFFFFFFE := by simpa [opcodeRows, opcode] using h
    cases w <;> decide

theorem decode_of_unknown_opcode {w : CommandWord} (h : ∀ m, (opField w, m) ∉ opcodeRows) :
    decode w = .rejected .illegalOp := by
  refine decodeFields_eq_illegalOp_iff.mpr fun known => ?_
  obtain ⟨⟨op, m⟩, hrow, heq⟩ := List.mem_map.mp known
  exact h m (BitVec.eq_of_toNat_eq heq ▸ hrow)

theorem decode_of_reserved_bit {w m : CommandWord} (hrow : (opField w, m) ∈ opcodeRows) (hm : w &&& m ≠ 0) :
    decode w = .rejected .reserved := by
  cases hd : decode w with
  | command i =>
    have op_eq : opcode i = opField w := BitVec.eq_of_toNat_eq (decode_eq_command_iff.mp hd).op_eq
    obtain ⟨rfl, -⟩ := encodeOfDecodeIsWord w i hd
    exact absurd (encode_and_reserved (op_eq ▸ hrow)) hm
  | rejected r =>
    cases r with
    | illegalOp => exact absurd (List.mem_map_of_mem hrow) (decodeFields_eq_illegalOp_iff.mp hd)
    | reserved => rfl

/-! ## The step on a word, by how it ends (R236, R244) -/

section
variable {s : State} {w : CommandWord} {rest : List Input}

/-- A word that is no command faults with the cause of its rejection (R112 (3), (4)). -/
theorem step_rejected {r : Reject} (hin : s.input = .cmd w :: rest) (hf : s.fault = false)
    (hd : decode w = .rejected r) : step s = .next (takeFault (causeOfReject r) { s with input := rest }) := by
  rw [step_cmd hin, hd]
  simp [rejectWord, hf]

theorem step_word_faulted (hin : s.input = .cmd w :: rest) (hf : s.fault = true) :
    step s = .next (refuseFaulted { s with input := rest }) := by
  rw [step_cmd hin]
  cases decode w with
  | command i => exact exec_faulted (s := { s with input := rest }) i hf
  | rejected r => simp [rejectWord, hf]

/-- A word that faults is a rejection or a command with a violation; either way the step is fault entry. -/
theorem step_takes_fault {t : State} (hin : s.input = .cmd w :: rest) (hf : s.fault = false)
    (h : step s = .next t) (ht : t.fault = true) : ∃ c, t = takeFault c { s with input := rest } := by
  cases hd : decode w with
  | command i =>
    rw [stepRunsDecodedCommand s w rest i hin hd] at h
    rcases exec_cases h with ⟨hs, -⟩ | ⟨-, c, -, rfl⟩ | ⟨-, -, rfl⟩
    · cases hf.symm.trans hs
    · exact ⟨c, rfl⟩
    · rw [effect_fault] at ht
      cases hf.symm.trans ht
  | rejected r =>
    rw [step_rejected hin hf hd] at h
    cases h
    exact ⟨causeOfReject r, rfl⟩

end

/-! ## The statements -/

/-- Settles O5: such a word decodes to the rejection of its opcode, and the step is its fault entry. -/
theorem unknownOpcodeFaults : Obligations.UnknownOpcodeFaults :=
  fun _ _ _ hin hf hop => step_rejected hin hf (decode_of_unknown_opcode hop)

/-- Settles O6: such a word decodes to the rejection of its reserved bits, and the step is its fault entry. -/
theorem reservedBitFaults : Obligations.ReservedBitFaults :=
  fun _ _ _ _ hin hf hrow hm => step_rejected hin hf (decode_of_reserved_bit hrow hm)

/-- Settles O15: a word is refused, and so is left faulted, and a step with nothing presented changes nothing. -/
theorem faultedBlockRefusesAll : Obligations.FaultedBlockRefusesAll := by
  refine ⟨fun s w rest hin hf => step_word_faulted hin hf, fun s t hf h ht => ?_⟩
  cases hin : s.input with
  | nil =>
    rw [step_idle hin] at h
    cases h
    cases hf.symm.trans ht
  | cons x rest =>
    cases x with
    | rst => exact ⟨rest, rfl⟩
    | cmd w =>
      rw [step_word_faulted hin hf] at h
      cases h
      cases hf.symm.trans ht

/-- Settles O16: the step is fault entry, which is this update of the state. -/
theorem faultsArePrecise : Obligations.FaultsArePrecise :=
  fun _ _ _ _ hin hf h ht => step_takes_fault hin hf h ht

/-- Settles O17: the violation each command reports is that of its first check. -/
theorem earlierCheckWins : Obligations.EarlierCheckWins := by
  refine fun s hf => ⟨fun hb n => ?_, fun e c he => ?_, fun best mtb hbest => ?_⟩
  · have unbuilt {bound : Nat} := checkBuilt_checkIndex_notBuilt (i := n) (bound := bound) hb
    exact ⟨exec_violation hf unbuilt, exec_violation hf unbuilt, exec_violation hf unbuilt⟩
  · exact exec_violation hf (violation_bmTblwr_index he)
  · exact exec_violation hf (violation_dhTraceback_index hbest)

/-- Settles O9: the step with nothing presented. -/
theorem waitingHoldsState : Obligations.WaitingHoldsState := fun _ => step_idle

/-- Settles O14: the table of the codes and the update of `takeFault`, read off their definitions. -/
theorem faultEntryWritesCodeOnly : Obligations.FaultEntryWritesCodeOnly :=
  ⟨⟨rfl, rfl, rfl, rfl, rfl, rfl, rfl⟩, fun _ _ => rfl⟩

end Sys2Proof.Machine

/-! The statements on reset and on the order of commands (spec/70_reset_and_hazards.md): what an assertion of `RST`
leaves, and that a swap before a process and one after it leave the same block. -/

namespace Sys2Proof.Machine

/-! ## Hard reset (R260, R50) -/

/-- Settles O8: the step is the hard reset, whose scalars and `PM` are the fields of the reset state. -/
theorem hardResetClearsBlock : Obligations.HardResetClearsBlock := fun s _ hi =>
  ⟨_, step_rst hi, rfl, rfl, rfl, rfl, rfl, rfl, rfl, rfl, rfl, rfl, rfl, rfl, rfl, rfl,
    memory_wf_afterHardReset s.params (s.resets + 1)⟩

/-! ## Two blocks whose buffers have exchanged roles (R27, R264) -/

/-- The walk of a traceback depends on the parameters and the history only (R169). -/
theorem walk_congr_history {s t : State} (hp : t.params = s.params) (hh : t.hist = s.hist) (mtb k j pos st : Nat) :
    walk t mtb k j pos st = walk s mtb k j pos st :=
  walk_congr (R := fun _ _ => True) hp (fun _ _ _ => by simp only [readEntry, slice, hh]) (fun _ _ _ _ => trivial)
    k j pos st trivial

/-- A traceback hands over one batch, the bits of its walk (R166). -/
theorem batches_traceback (best mtb : Nat) (s : State) :
    (traceback best mtb s).1.batches = s.batches ++ [walk s mtb s.len.toNat 0 s.idx.toNat best] :=
  batches_of_batch rfl

/-- `t` is `s` with `SEL` toggled, so that what `t` selects by `w` is what `s` selects by `!w`. The two have sent the
same batches, and may have answered differently. -/
def RolesExchanged (s t : State) : Prop :=
  ∃ sent, t = { s with sel := !s.sel, outputs := sent } ∧ t.batches = s.batches

theorem rolesExchanged_pmSwap (s : State) : RolesExchanged s (effect .pmSwap s) :=
  ⟨_, rfl, batches_of_response rfl⟩

section
variable {s t : State}

/-- A swap exchanges the roles back. -/
theorem RolesExchanged.agrees_pmSwap (h : RolesExchanged s t) :
    { t with outputs := [] } = { effect .pmSwap s with outputs := [] } ∧ t.batches = (effect .pmSwap s).batches := by
  obtain ⟨sent, rfl, sameBatches⟩ := h
  exact ⟨rfl, sameBatches.trans (batches_of_response rfl).symm⟩

theorem RolesExchanged.counters (h : RolesExchanged s t) :
    t.params = s.params ∧ t.len = s.len ∧ t.rcnt = s.rcnt := by
  obtain ⟨sent, rfl, -⟩ := h
  exact ⟨rfl, rfl, rfl⟩

theorem RolesExchanged.selector (h : RolesExchanged s t) (w : Bool) : (t.sel ^^ w) = (s.sel ^^ !w) := by
  obtain ⟨sent, rfl, -⟩ := h
  rw [Bool.not_xor, Bool.xor_not]

theorem RolesExchanged.buf_eq (h : RolesExchanged s t) (w : Bool) : buf t w = buf s (!w) := by
  rw [buf, buf, h.selector]
  obtain ⟨sent, rfl, -⟩ := h
  rfl

theorem RolesExchanged.search_eq (h : RolesExchanged s t) (w : Bool) (stride : Nat) :
    search t w stride = search s (!w) stride := by
  obtain ⟨params, -⟩ := h.counters
  simp only [search, readMetric, h.buf_eq, params]

theorem RolesExchanged.respond (h : RolesExchanged s t) (q r : BitVec 32) :
    RolesExchanged (respond q s) (respond r t) := by
  obtain ⟨sent, rfl, sameBatches⟩ := h
  exact ⟨_, rfl, (batches_of_response rfl).trans (sameBatches.trans (batches_of_response rfl).symm)⟩

theorem RolesExchanged.commitSlice (h : RolesExchanged s t) : RolesExchanged (commitSlice s) (commitSlice t) := by
  obtain ⟨sent, rfl, sameBatches⟩ := h
  exact ⟨sent, rfl, sameBatches⟩

theorem RolesExchanged.clearCounter (h : RolesExchanged s t) :
    RolesExchanged { s with rcnt := 0 } { t with rcnt := 0 } := by
  obtain ⟨sent, rfl, sameBatches⟩ := h
  exact ⟨sent, rfl, sameBatches⟩

theorem RolesExchanged.setPmBuffer (h : RolesExchanged s t) (b : Bool) (l : List Metric) :
    RolesExchanged (setPmBuffer b l s) (setPmBuffer b l t) := by
  obtain ⟨sent, rfl, sameBatches⟩ := h
  cases b <;> exact ⟨sent, rfl, sameBatches⟩

theorem RolesExchanged.renormalize (h : RolesExchanged s t) (w : Bool) (ms : Nat) :
    RolesExchanged (renormalize (!w) ms s) (renormalize w ms t) := by
  simp only [Machine.renormalize, readMetric, setBuf, h.buf_eq, h.selector]
  exact h.setPmBuffer _ _

theorem RolesExchanged.traceback (h : RolesExchanged s t) (best mtb : Nat) :
    RolesExchanged (traceback best mtb s).1 (traceback best mtb t).1 := by
  obtain ⟨sent, rfl, sameBatches⟩ := h
  have sameWalk := walk_congr_history (s := s) (t := { s with sel := !s.sel, outputs := sent }) rfl rfl mtb
    s.len.toNat 0 s.idx.toNat best
  refine ⟨sent ++ [.batch (walk s mtb s.len.toNat 0 s.idx.toNat best)], ?_, ?_⟩
  · simp only [Machine.traceback, sameWalk]
    rfl
  · rw [batches_traceback, batches_traceback, sameBatches, sameWalk]

/-- The four cases are the four actions of R172, and the counters that choose one are the same in both blocks. -/
theorem RolesExchanged.procActions (h : RolesExchanged s t) (w : Bool) (skip : Nat) :
    RolesExchanged (procActions skip (!w) s).1 (procActions skip w t).1 := by
  have renormalized := h.clearCounter.renormalize w (search s (!w) skip)
  obtain ⟨params, len, rcnt⟩ := h.counters
  have warmup : t.params.minTb = s.params.minTb := congrArg Params.minTb params
  by_cases hr : s.rcnt.toNat = s.params.renormInterval
  · have hr' : t.rcnt.toNat = t.params.renormInterval := by rwa [rcnt, params]
    by_cases hl : s.len.toNat = s.params.cap
    · have hl' : t.len.toNat = t.params.cap := by rwa [len, params]
      rw [procActions_both hr hl, procActions_both hr' hl', h.search_eq, warmup]
      exact renormalized.traceback _ _
    · have hl' : t.len.toNat ≠ t.params.cap := by rwa [len, params]
      rw [procActions_renormalize hr hl, procActions_renormalize hr' hl', h.search_eq]
      exact renormalized
  · have hr' : t.rcnt.toNat ≠ t.params.renormInterval := by rwa [rcnt, params]
    by_cases hl : s.len.toNat = s.params.cap
    · have hl' : t.len.toNat = t.params.cap := by rwa [len, params]
      rw [procActions_traceback hr hl, procActions_traceback hr' hl', h.search_eq, warmup]
      exact h.traceback _ _
    · have hl' : t.len.toNat ≠ t.params.cap := by rwa [len, params]
      rw [procActions_neither hr hl, procActions_neither hr' hl']
      exact h

theorem RolesExchanged.procskip (h : RolesExchanged s t) (w : Bool) (skip : Nat) :
    RolesExchanged (procskip skip (!w) s).1 (procskip skip w t).1 :=
  h.commitSlice.procActions w skip

theorem RolesExchanged.dhProc (h : RolesExchanged s t) (w : Bool) :
    RolesExchanged (effect (.dhProc (!w)) s) (effect (.dhProc w) t) :=
  (h.procskip w 1).respond _ _

end

/-! ## Two commands in a row -/

section
variable {s : State} {i j : Instr}

theorem runCommands_pair_faulted (hf : s.fault = true) :
    runCommands [i, j] s = .next (refuseFaulted (refuseFaulted s)) := by
  have again : exec j (refuseFaulted s) = .next (refuseFaulted (refuseFaulted s)) := exec_faulted j hf
  simp only [runCommands, exec_faulted i hf, again]

theorem runCommands_pair_completes (hf : s.fault = false) (hi : violation i s = none)
    (hj : violation j (effect i s) = none) : runCommands [i, j] s = .next (effect j (effect i s)) := by
  have second := exec_completes ((effect_fault i s).trans hf) hj
  simp only [runCommands, exec_completes hf hi, second]

end

/-- Settles O40: a faulted block refuses both orders alike; another completes them, and the swap and the process keep
the roles exchanged until the later swap exchanges them back. -/
theorem stepOrdersAgree : Obligations.StepOrdersAgree := by
  intro s
  cases hf : s.fault with
  | true => exact ⟨_, _, runCommands_pair_faulted hf, runCommands_pair_faulted hf, rfl, rfl, rfl⟩
  | false =>
    have exchanged := (rolesExchanged_pmSwap s).dhProc false
    obtain ⟨sameBlock, sameBatches⟩ := exchanged.agrees_pmSwap
    exact ⟨_, _, runCommands_pair_completes hf rfl rfl, runCommands_pair_completes hf rfl rfl, sameBlock, sameBatches,
      congrArg (·.flatMap List.reverse) sameBatches⟩

end Sys2Proof.Machine
